-- ==== Sys2Proof/Word.lean ====
section
/-! DEFINITION. The word types of the core: rules R8, R11 and R20 of spec/00_scope.md and spec/10_state.md.

Every register value, address and immediate is a 32-bit vector and `+`, `-`, `*` on them wrap (R11);
memory is addressed in bytes (R34); a register index is a 5-bit field (R23). -/

namespace Sys2Proof

/-- A 32-bit register value, address or instruction word (R8, R11, R60). -/
abbrev Word := BitVec 32

/-- The smallest unit memory holds (R34). -/
abbrev Byte := BitVec 8

/-- A register index: a 5-bit field, so always in 0..31 (R23). -/
abbrev RegIdx := BitVec 5

end Sys2Proof
end

