-- ==== Sys2Proof/Decode.lean ====
section
/-! DEFINITION. Fields, immediates, the decoder and the encoder: spec/30_encoding.md, rules R60 to R82.

The decoder functions are pure and total over all 2^32 words (R67). `decodeWord` follows R61 and R74 to R79 group by
group; a word it selects no instruction for is rejected under a name that says which condition of R80 holds. MULHSU and
the SYSTEM group are instructions here, because the opcode table gives them rows; their meanings raise
UnimplementedInstruction, as R80 asks (log entry 12). -/

namespace Sys2Proof

/-! ### Fields (R62 to R66) -/

/-- `inst[1:0]` (R61). -/
def lowBitsOf (w : Word) : BitVec 2 := w.extractLsb' 0 2

/-- `opcode = inst[6:2]` (R62). -/
def opcodeOf (w : Word) : BitVec 5 := w.extractLsb' 2 5

/-- `rd = inst[11:7]` (R63). -/
def rdOf (w : Word) : RegIdx := w.extractLsb' 7 5

/-- `rs1 = inst[19:15]` (R63). -/
def rs1Of (w : Word) : RegIdx := w.extractLsb' 15 5

/-- `rs2 = inst[24:20]` (R63). -/
def rs2Of (w : Word) : RegIdx := w.extractLsb' 20 5

/-- `funct3 = inst[14:12]` (R64). -/
def funct3Of (w : Word) : BitVec 3 := w.extractLsb' 12 3

/-- `funct7 = inst[31:25]` (R65). -/
def funct7Of (w : Word) : BitVec 7 := w.extractLsb' 25 7

/-- `funct10 = funct7 ++ funct3` (R66). -/
def funct10Of (w : Word) : BitVec 10 := funct7Of w ++ funct3Of w

/-- The shift amount of the register-immediate shifts, `inst[24:20]` (R73). -/
def shamtOf (w : Word) : BitVec 5 := w.extractLsb' 20 5

/-! ### Immediates (R68 to R72): the gathered field of the word, and its 32-bit value -/

/-- `inst[31:20]` (R68). -/
def fieldI (w : Word) : BitVec 12 := w.extractLsb' 20 12

/-- `inst[31:25] ++ inst[11:7]` (R69). -/
def fieldS (w : Word) : BitVec 12 := w.extractLsb' 25 7 ++ w.extractLsb' 7 5

/-- `inst[31] ++ inst[7] ++ inst[30:25] ++ inst[11:8] ++ 0` (R70). -/
def fieldB (w : Word) : BitVec 13 :=
  w.extractLsb' 31 1 ++ w.extractLsb' 7 1 ++ w.extractLsb' 25 6 ++ w.extractLsb' 8 4 ++ 0#1

/-- `inst[31:12]` (R71). -/
def fieldU (w : Word) : BitVec 20 := w.extractLsb' 12 20

/-- `inst[31] ++ inst[19:12] ++ inst[20] ++ inst[30:21] ++ 0` (R72). -/
def fieldJ (w : Word) : BitVec 21 :=
  w.extractLsb' 31 1 ++ w.extractLsb' 12 8 ++ w.extractLsb' 20 1 ++ w.extractLsb' 21 10 ++ 0#1

/-- `sext_32` (R12). -/
def sext32 {n : Nat} (v : BitVec n) : Word := v.signExtend 32

/-- `zext_32` (R12). -/
def zext32 {n : Nat} (v : BitVec n) : Word := v.zeroExtend 32

/-- The U-immediate of a 20-bit field: the field in place, the low 12 bits zero (R71). -/
def upper32 (v : BitVec 20) : Word := v ++ 0#12

/-- `imm_i` (R68). -/
def immI (w : Word) : Word := sext32 (fieldI w)

/-- `imm_s` (R69). -/
def immS (w : Word) : Word := sext32 (fieldS w)

/-- `imm_b` (R70). -/
def immB (w : Word) : Word := sext32 (fieldB w)

/-- `imm_u` (R71). -/
def immU (w : Word) : Word := upper32 (fieldU w)

/-- `imm_j` (R72). -/
def immJ (w : Word) : Word := sext32 (fieldJ w)

/-! ### The opcode table (R74 to R80) -/

/-- Why no instruction is selected: the conditions of R80, and a byte string too short to hold a word. -/
inductive Reject where
  /-- Fewer than four bytes: no word (R60). The step never meets it, since a fetch gives four bytes. -/
  | truncated
  /-- `inst[1:0] ≠ 11` (R61). -/
  | lowBits
  /-- `opcode` selects no group (R74). -/
  | noGroup
  /-- The group's function code is absent from its table (R75 to R77 and R79). -/
  | noFunction
  deriving DecidableEq, Repr

/-- The table of the OP group: funct10 and the operation it selects (R75). -/
def opTable : List (BitVec 10 × (RegIdx → RegIdx → RegIdx → Instr)) :=
  [(0x000#10, .add), (0x100#10, .sub), (0x001#10, .sll), (0x002#10, .slt), (0x003#10, .sltu), (0x004#10, .xor),
   (0x005#10, .srl), (0x105#10, .sra), (0x006#10, .or), (0x007#10, .and)] ++
  [(0x008#10, .mul), (0x009#10, .mulh), (0x00A#10, .mulhsu), (0x00B#10, .mulhu), (0x00C#10, .div), (0x00D#10, .divu),
   (0x00E#10, .rem), (0x00F#10, .remu)]

/-- The entry of a table under a key. -/
def lookupKey {n : Nat} {α : Type} (key : BitVec n) : List (BitVec n × α) → Option α
  | [] => none
  | (k, a) :: rest => if key = k then some a else lookupKey key rest

/-- The OP group, selected by funct10 (R75). -/
def decodeOp (w : Word) : Except Reject Instr :=
  match lookupKey (funct10Of w) opTable with
  | some mk => .ok (mk (rdOf w) (rs1Of w) (rs2Of w))
  | none => .error .noFunction

/-- The OP-IMM group, selected by funct3, and for the shifts by funct7 too (R76). -/
def decodeOpImm (w : Word) : Except Reject Instr :=
  if funct3Of w = 0b000#3 then .ok (.addi (rdOf w) (rs1Of w) (fieldI w))
  else if funct3Of w = 0b010#3 then .ok (.slti (rdOf w) (rs1Of w) (fieldI w))
  else if funct3Of w = 0b011#3 then .ok (.sltiu (rdOf w) (rs1Of w) (fieldI w))
  else if funct3Of w = 0b100#3 then .ok (.xori (rdOf w) (rs1Of w) (fieldI w))
  else if funct3Of w = 0b110#3 then .ok (.ori (rdOf w) (rs1Of w) (fieldI w))
  else if funct3Of w = 0b111#3 then .ok (.andi (rdOf w) (rs1Of w) (fieldI w))
  else if funct10Of w = 0x001#10 then .ok (.slli (rdOf w) (rs1Of w) (shamtOf w))
  else if funct10Of w = 0x005#10 then .ok (.srli (rdOf w) (rs1Of w) (shamtOf w))
  else if funct10Of w = 0x105#10 then .ok (.srai (rdOf w) (rs1Of w) (shamtOf w))
  else .error .noFunction

/-- The BRANCH group, selected by funct3 (R77). -/
def decodeBranch (w : Word) : Except Reject Instr :=
  if funct3Of w = 0b000#3 then .ok (.beq (rs1Of w) (rs2Of w) (fieldB w))
  else if funct3Of w = 0b001#3 then .ok (.bne (rs1Of w) (rs2Of w) (fieldB w))
  else if funct3Of w = 0b100#3 then .ok (.blt (rs1Of w) (rs2Of w) (fieldB w))
  else if funct3Of w = 0b101#3 then .ok (.bge (rs1Of w) (rs2Of w) (fieldB w))
  else if funct3Of w = 0b110#3 then .ok (.bltu (rs1Of w) (rs2Of w) (fieldB w))
  else if funct3Of w = 0b111#3 then .ok (.bgeu (rs1Of w) (rs2Of w) (fieldB w))
  else .error .noFunction

/-- The LOAD group, selected by funct3 (R77). -/
def decodeLoad (w : Word) : Except Reject Instr :=
  if funct3Of w = 0b000#3 then .ok (.lb (rdOf w) (rs1Of w) (fieldI w))
  else if funct3Of w = 0b001#3 then .ok (.lh (rdOf w) (rs1Of w) (fieldI w))
  else if funct3Of w = 0b010#3 then .ok (.lw (rdOf w) (rs1Of w) (fieldI w))
  else if funct3Of w = 0b100#3 then .ok (.lbu (rdOf w) (rs1Of w) (fieldI w))
  else if funct3Of w = 0b101#3 then .ok (.lhu (rdOf w) (rs1Of w) (fieldI w))
  else .error .noFunction

/-- The STORE group, selected by funct3 (R77). -/
def decodeStore (w : Word) : Except Reject Instr :=
  if funct3Of w = 0b000#3 then .ok (.sb (rs1Of w) (rs2Of w) (fieldS w))
  else if funct3Of w = 0b001#3 then .ok (.sh (rs1Of w) (rs2Of w) (fieldS w))
  else if funct3Of w = 0b010#3 then .ok (.sw (rs1Of w) (rs2Of w) (fieldS w))
  else .error .noFunction

/-- The JALR group: funct3 = 000 only (R77, decision D19). -/
def decodeJalr (w : Word) : Except Reject Instr :=
  if funct3Of w = 0b000#3 then .ok (.jalr (rdOf w) (rs1Of w) (fieldI w)) else .error .noFunction

/-- The MISC-MEM group: funct3 = 000 is FENCE, whatever the other bits hold (R79, decision D18). -/
def decodeMiscMem (w : Word) : Except Reject Instr :=
  if funct3Of w = 0b000#3 then
    .ok (.fence (w.extractLsb' 28 4) (w.extractLsb' 24 4) (w.extractLsb' 20 4) (rs1Of w) (rdOf w))
  else .error .noFunction

/-- The groups, selected by `inst[6:2]` (R74); LUI, AUIPC, JAL and SYSTEM by the opcode alone (R78, R79). -/
def decodeGroup (w : Word) : Except Reject Instr :=
  if opcodeOf w = 0b00000#5 then decodeLoad w
  else if opcodeOf w = 0b00011#5 then decodeMiscMem w
  else if opcodeOf w = 0b00100#5 then decodeOpImm w
  else if opcodeOf w = 0b00101#5 then .ok (.auipc (rdOf w) (fieldU w))
  else if opcodeOf w = 0b01000#5 then decodeStore w
  else if opcodeOf w = 0b01100#5 then decodeOp w
  else if opcodeOf w = 0b01101#5 then .ok (.lui (rdOf w) (fieldU w))
  else if opcodeOf w = 0b11000#5 then decodeBranch w
  else if opcodeOf w = 0b11001#5 then decodeJalr w
  else if opcodeOf w = 0b11011#5 then .ok (.jal (rdOf w) (fieldJ w))
  else if opcodeOf w = 0b11100#5 then .ok (.system (fieldI w) (rs1Of w) (funct3Of w) (rdOf w))
  else .error .noGroup

/-- The decoder: the low bits must be 11 (R61), then the group decides. -/
def decodeWord (w : Word) : Except Reject Instr :=
  if lowBitsOf w = 0b11#2 then decodeGroup w else .error .lowBits

/-! ### Byte order (R43) -/

/-- The number little-endian bytes stand for: the byte at the lowest address is the least significant (R43, R44). -/
def leNat : List Byte → Nat
  | [] => 0
  | b :: bs => b.toNat + 256 * leNat bs

/-- Bytes `from`, `from + 1`, ... of a value, `n` of them: byte k is `v[8k+7:8k]` (R45). -/
def leBytesFrom {bits : Nat} (v : BitVec bits) : Nat → Nat → List Byte
  | _, 0 => []
  | k, n + 1 => v.extractLsb' (8 * k) 8 :: leBytesFrom v (k + 1) n

/-- The bytes of a value, lowest address first: as many as its width holds (R45). -/
def leBytes {bits : Nat} (v : BitVec bits) : List Byte := leBytesFrom v 0 (bits / 8)

/-- The decoder on any bytes: the first four make one word, least significant byte first (R43, R60). -/
def decodeBytes : List Byte → Except Reject (Instr × List Byte)
  | b0 :: b1 :: b2 :: b3 :: rest =>
    match decodeWord (BitVec.ofNat 32 (leNat [b0, b1, b2, b3])) with
    | .ok i => .ok (i, rest)
    | .error r => .error r
  | _ => .error .truncated

/-- What the decoder reads from an instruction whose bits are `w`, numbered as spec/opcode_table.json numbers them: bits
from `nbits` up are zero, and the word's bytes are laid out in the order the core stores them. -/
def decodeTableWord (nbits w : Nat) : Option Instr :=
  match decodeBytes (leBytes (BitVec.ofNat 32 (w % 2 ^ nbits))) with
  | .ok (i, _) => some i
  | .error _ => none

/-! ### The encoder: the formats of R60, and each instruction's word -/

/-- R format (R60). -/
def encodeR (funct7 : BitVec 7) (rs2 rs1 : RegIdx) (funct3 : BitVec 3) (rd : RegIdx) (major : BitVec 7) : Word :=
  funct7 ++ rs2 ++ rs1 ++ funct3 ++ rd ++ major

/-- I format (R60). -/
def encodeI (imm : BitVec 12) (rs1 : RegIdx) (funct3 : BitVec 3) (rd : RegIdx) (major : BitVec 7) : Word :=
  imm ++ rs1 ++ funct3 ++ rd ++ major

/-- S format (R60): `imm[11:5]` in bits 31..25, `imm[4:0]` in bits 11..7. -/
def encodeS (imm : BitVec 12) (rs2 rs1 : RegIdx) (funct3 : BitVec 3) (major : BitVec 7) : Word :=
  imm.extractLsb' 5 7 ++ rs2 ++ rs1 ++ funct3 ++ imm.extractLsb' 0 5 ++ major

/-- B format (R60): bit 31 = `imm[12]`, bits 30..25 = `imm[10:5]`, bits 11..8 = `imm[4:1]`, bit 7 = `imm[11]`. -/
def encodeB (imm : BitVec 13) (rs2 rs1 : RegIdx) (funct3 : BitVec 3) (major : BitVec 7) : Word :=
  imm.extractLsb' 12 1 ++ imm.extractLsb' 5 6 ++ rs2 ++ rs1 ++ funct3 ++ imm.extractLsb' 1 4 ++ imm.extractLsb' 11 1 ++ major

/-- U format (R60). -/
def encodeU (imm : BitVec 20) (rd : RegIdx) (major : BitVec 7) : Word := imm ++ rd ++ major

/-- J format (R60): bit 31 = `imm[20]`, bits 30..21 = `imm[10:1]`, bit 20 = `imm[11]`, bits 19..12 = `imm[19:12]`. -/
def encodeJ (imm : BitVec 21) (rd : RegIdx) (major : BitVec 7) : Word :=
  imm.extractLsb' 20 1 ++ imm.extractLsb' 1 10 ++ imm.extractLsb' 11 1 ++ imm.extractLsb' 12 8 ++ rd ++ major

/-- The word of a well-formed instruction, from the formats of R60 and the values of R74 to R79. -/
def encode : Instr → Word
  | .add rd rs1 rs2 => encodeR 0b0000000#7 rs2 rs1 0b000#3 rd 0b0110011#7
  | .sub rd rs1 rs2 => encodeR 0b0100000#7 rs2 rs1 0b000#3 rd 0b0110011#7
  | .sll rd rs1 rs2 => encodeR 0b0000000#7 rs2 rs1 0b001#3 rd 0b0110011#7
  | .slt rd rs1 rs2 => encodeR 0b0000000#7 rs2 rs1 0b010#3 rd 0b0110011#7
  | .sltu rd rs1 rs2 => encodeR 0b0000000#7 rs2 rs1 0b011#3 rd 0b0110011#7
  | .xor rd rs1 rs2 => encodeR 0b0000000#7 rs2 rs1 0b100#3 rd 0b0110011#7
  | .srl rd rs1 rs2 => encodeR 0b0000000#7 rs2 rs1 0b101#3 rd 0b0110011#7
  | .sra rd rs1 rs2 => encodeR 0b0100000#7 rs2 rs1 0b101#3 rd 0b0110011#7
  | .or rd rs1 rs2 => encodeR 0b0000000#7 rs2 rs1 0b110#3 rd 0b0110011#7
  | .and rd rs1 rs2 => encodeR 0b0000000#7 rs2 rs1 0b111#3 rd 0b0110011#7
  | .addi rd rs1 imm => encodeI imm rs1 0b000#3 rd 0b0010011#7
  | .slti rd rs1 imm => encodeI imm rs1 0b010#3 rd 0b0010011#7
  | .sltiu rd rs1 imm => encodeI imm rs1 0b011#3 rd 0b0010011#7
  | .xori rd rs1 imm => encodeI imm rs1 0b100#3 rd 0b0010011#7
  | .ori rd rs1 imm => encodeI imm rs1 0b110#3 rd 0b0010011#7
  | .andi rd rs1 imm => encodeI imm rs1 0b111#3 rd 0b0010011#7
  | .slli rd rs1 shamt => encodeR 0b0000000#7 shamt rs1 0b001#3 rd 0b0010011#7
  | .srli rd rs1 shamt => encodeR 0b0000000#7 shamt rs1 0b101#3 rd 0b0010011#7
  | .srai rd rs1 shamt => encodeR 0b0100000#7 shamt rs1 0b101#3 rd 0b0010011#7
  | .mul rd rs1 rs2 => encodeR 0b0000001#7 rs2 rs1 0b000#3 rd 0b0110011#7
  | .mulh rd rs1 rs2 => encodeR 0b0000001#7 rs2 rs1 0b001#3 rd 0b0110011#7
  | .mulhsu rd rs1 rs2 => encodeR 0b0000001#7 rs2 rs1 0b010#3 rd 0b0110011#7
  | .mulhu rd rs1 rs2 => encodeR 0b0000001#7 rs2 rs1 0b011#3 rd 0b0110011#7
  | .div rd rs1 rs2 => encodeR 0b0000001#7 rs2 rs1 0b100#3 rd 0b0110011#7
  | .divu rd rs1 rs2 => encodeR 0b0000001#7 rs2 rs1 0b101#3 rd 0b0110011#7
  | .rem rd rs1 rs2 => encodeR 0b0000001#7 rs2 rs1 0b110#3 rd 0b0110011#7
  | .remu rd rs1 rs2 => encodeR 0b0000001#7 rs2 rs1 0b111#3 rd 0b0110011#7
  | .lui rd imm => encodeU imm rd 0b0110111#7
  | .auipc rd imm => encodeU imm rd 0b0010111#7
  | .jal rd offset => encodeJ offset rd 0b1101111#7
  | .jalr rd rs1 imm => encodeI imm rs1 0b000#3 rd 0b1100111#7
  | .beq rs1 rs2 offset => encodeB offset rs2 rs1 0b000#3 0b1100011#7
  | .bne rs1 rs2 offset => encodeB offset rs2 rs1 0b001#3 0b1100011#7
  | .blt rs1 rs2 offset => encodeB offset rs2 rs1 0b100#3 0b1100011#7
  | .bge rs1 rs2 offset => encodeB offset rs2 rs1 0b101#3 0b1100011#7
  | .bltu rs1 rs2 offset => encodeB offset rs2 rs1 0b110#3 0b1100011#7
  | .bgeu rs1 rs2 offset => encodeB offset rs2 rs1 0b111#3 0b1100011#7
  | .lb rd rs1 imm => encodeI imm rs1 0b000#3 rd 0b0000011#7
  | .lh rd rs1 imm => encodeI imm rs1 0b001#3 rd 0b0000011#7
  | .lw rd rs1 imm => encodeI imm rs1 0b010#3 rd 0b0000011#7
  | .lbu rd rs1 imm => encodeI imm rs1 0b100#3 rd 0b0000011#7
  | .lhu rd rs1 imm => encodeI imm rs1 0b101#3 rd 0b0000011#7
  | .sb rs1 rs2 imm => encodeS imm rs2 rs1 0b000#3 0b0100011#7
  | .sh rs1 rs2 imm => encodeS imm rs2 rs1 0b001#3 0b0100011#7
  | .sw rs1 rs2 imm => encodeS imm rs2 rs1 0b010#3 0b0100011#7
  | .fence fm pred succ rs1 rd => encodeI (fm ++ pred ++ succ) rs1 0b000#3 rd 0b0001111#7
  | .system funct12 rs1 funct3 rd => encodeI funct12 rs1 funct3 rd 0b1110011#7

end Sys2Proof
end

