-- ==== Sys2Proof/Config.lean ====
section
/-! DEFINITION. The open parameters of rule R9 (spec/00_scope.md) as one plain structure, and the values
`State.reset` takes for them.

The spec fixes no value for any of them. Everything that runs is defined for ALL parameters: `routes` is carried in
`State`, and registers, pc and memory are arbitrary in a statement about every state. The values in
`Config.standard` bear on `State.reset` alone; they are those of the conventions of spec/95_test_vectors.md
(DESIGN CHOICE, log entries 1 to 5). There is no free value: spec/93_implementation_defined.md says every open point is
a fault, a parameter or a fixed value. -/

namespace Sys2Proof

/-- One pair of ROUTES (R41): an address range, both ends included, and the backing store it leads to. Ranges that name
one store lead to the same bytes (DEDUCED, log entry 7). R9 and R41 do not say whether a range may wrap past 0xFFFFFFFF: one whose `last` is below
its `first` holds no address (DESIGN CHOICE, unsafe for such a range, log entry 16). -/
structure Route where
  first : Word
  last  : Word
  store : Nat
  deriving DecidableEq, Repr

/-- The open parameters of R9. `initRegs` has an entry for x0 too, which is ignored (R36, decision D26). -/
structure Config where
  resetPc   : Word
  imageBase : Word
  image     : List Byte
  routes    : List Route
  initRegs  : Vector Word 32
  initMem   : List (Nat × Byte)
  deriving DecidableEq, Repr

/-- ROUTES of the configuration of §4.5: one store over every address (R42). -/
def fullRoutes : List Route := [⟨0x00000000#32, 0xFFFFFFFF#32, 0⟩]

/-- What a byte of a store reads as when the memory does not list it. The spec leaves INIT_MEM open (R36, D10): DESIGN CHOICE,
unsafe, log entry 3. -/
def unlistedByte : Byte := 0x00#8

/-- The parameters `State.reset` takes: RESET_PC = IMAGE_BASE = 0x00001000, no image, registers and memory zero, every
address mapped. DESIGN CHOICE, log entries 1 to 5. -/
def Config.standard : Config where
  resetPc   := 0x00001000#32
  imageBase := 0x00001000#32
  image     := []
  routes    := fullRoutes
  initRegs  := Vector.replicate 32 0#32
  initMem   := []

end Sys2Proof
end

