-- ==== Sys2Proof/Machine/State.lean ====
section
/-! DEFINITION. The state of the core (R35: `(x[1..31], pc, mem, status)`), the fault record (R264), the two ways a step
ends without a next state, and `State.reset`.

R35 says there is no other state: no flags, no control register, no reservation, no buffer, no mode. ROUTES is
configuration (R9); it rides in `State` because `step` takes no other argument, and no step changes it (log entry 6). -/

namespace Sys2Proof.Machine

/-- What an access was for (R264). -/
inductive Access where
  | fetch
  | load
  | store
  deriving DecidableEq, Repr

/-- The three kinds of fault (R260). -/
inductive FaultKind where
  | instructionAddressMisaligned
  | memoryFault
  | unimplementedInstruction
  deriving DecidableEq, Repr

/-- The fault record (R264): `inst` is absent for the fetch faults, `addr` for UnimplementedInstruction, and `access` is
present for MemoryFault only. -/
structure FaultRecord where
  kind   : FaultKind
  code   : Nat
  pc     : Word
  inst   : Option Word
  addr   : Option Word
  access : Option Access
  deriving DecidableEq, Repr

/-- The run status (R35). -/
inductive Status where
  | running
  | faulted (record : FaultRecord)
  deriving DecidableEq, Repr

/-- The bytes of the backing stores that differ from `unlistedByte`, each under its location (`locationOf`, log entry 7). -/
abbrev Memory := List Host.Cell

/-- The state of the core. `regs` holds x1..x31; x0 is the constant zero (R21, R22, R26; log entry 8). -/
structure State where
  regs   : Vector Word 31
  pc     : Word
  mem    : Memory
  status : Status
  routes : List Route
  deriving DecidableEq, Repr

/-- The one reason a step has no next state and the instruction is not to blame. -/
inductive Fault where
  /-- Raised by `step` alone, when the status is already Faulted: "a state with status = Faulted(record) has no step"
  (R266, R100). Safe: the spec gives no step there either. -/
  | coreFaulted (record : FaultRecord)
  deriving DecidableEq, Repr

/-- Reasons the model gives no meaning. -/
inductive Refusal where
  /-- Raised by an arm of `exec` whose instruction has no meaning yet: no arm does. Safe: the model stops where the core
  goes on. -/
  | notModelled (mnemonic : String)
  deriving DecidableEq, Repr

/-- The three outcomes of a step, at this state. -/
abbrev Result := Host.Outcome State Fault Refusal

/-- Every listed location is above `k`, and the locations rise strictly. -/
def risesAbove : Nat → Memory → Bool
  | _, [] => true
  | k, (a, _) :: m => decide (k < a) && risesAbove a m

/-- Locations rise strictly from the first one on. -/
def rises : Memory → Bool
  | [] => true
  | (a, _) :: m => risesAbove a m

/-- The canonical form of memory: locations strictly rising, and no entry equal to what an unlisted location reads as. -/
def Memory.wf (m : Memory) : Bool :=
  rises m && m.all (fun c => decide (c.2 ≠ unlistedByte))

/-- The core before the first cycle (R36, R290), with the parameters of `Config.standard` (log entries 1 to 5): no image
is loaded, so every byte reads as `unlistedByte`. `boot` of Machine/Boot.lean gives the initial state of any parameters. -/
def State.reset : State where
  regs   := Vector.replicate 31 0#32
  pc     := Config.standard.resetPc
  mem    := []
  status := .running
  routes := Config.standard.routes

/-- What an external collaborator may read after a cycle: pc and x0..x31, and in Faulted the record (R277). -/
structure Snapshot where
  pc     : Word
  regs   : Vector Word 32
  record : Option FaultRecord
  deriving DecidableEq, Repr

end Sys2Proof.Machine
end

