-- ==== Sys2Proof/Machine/Ops.lean ====
section
/-! DEFINITION. The named operations over registers, memory and pc, raising a fault, and fetching an instruction. -/

namespace Sys2Proof.Machine

/-! ### Single fields -/

def setPc (s : State) (v : Word) : State := { s with pc := v }

def setMem (s : State) (m : Memory) : State := { s with mem := m }

def setStatus (s : State) (st : Status) : State := { s with status := st }

/-! ### Registers (R20 to R23) -/

theorem regSlot_lt (i : RegIdx) : i.toNat - 1 < 31 := by have := i.isLt; omega

/-- `x[i]`: zero for index 0 unconditionally, else the stored value (R21). -/
def readReg (s : State) (i : RegIdx) : Word :=
  if i = 0#5 then 0#32 else s.regs[i.toNat - 1]'(regSlot_lt i)

/-- `x[i] <- v`: discarded for index 0 (R22). -/
def writeReg (s : State) (i : RegIdx) (v : Word) : State :=
  if i = 0#5 then s else { s with regs := s.regs.set (i.toNat - 1) v (regSlot_lt i) }

/-! ### Which addresses exist (R41) -/

/-- The range of a pair of ROUTES holds the address. A range that would wrap past 0xFFFFFFFF, its last address below its
first, holds none: R9 and R41 leave it open (DESIGN CHOICE, unsafe for such a range, log entry 16). -/
def routeHolds (r : Route) (a : Word) : Bool := decide (r.first ≤ a) && decide (a ≤ r.last)

/-- The first pair whose range contains the address wins (R41, decision D27): its store, and the offset in it modulo
2^32. -/
def routeOf : List Route → Word → Option (Nat × Word)
  | [], _ => none
  | r :: rs, a => if routeHolds r a then some (r.store, a - r.first) else routeOf rs a

/-- The address is in MAPPED, the union of the ranges (R41). -/
def isMapped (routes : List Route) (a : Word) : Bool := (routeOf routes a).isSome

/-- Two addresses lead to one byte: the same offset of the same store (R41; that they then share it is DEDUCED, unsafe for
ranges over one store, log entry 7). -/
def sharesByte (routes : List Route) (a b : Word) : Bool :=
  isMapped routes a && decide (routeOf routes a = routeOf routes b)

/-- Where the memory keeps the byte an address leads to: the stores one after another, 2^32 locations each, so that the
locations of store 0 are its offsets (DESIGN CHOICE, safe, log entry 7). An address outside MAPPED leads to no byte. -/
def locationOf (routes : List Route) (a : Word) : Option Nat :=
  match routeOf routes a with
  | some (store, offset) => some (store * 2 ^ 32 + offset.toNat)
  | none => none

/-! ### The Memory Port (R40): bytes -/

/-- The byte a memory holds at a location: the listed one, else `unlistedByte`. -/
def memByte : Memory → Nat → Byte
  | [], _ => unlistedByte
  | (k, b) :: m, a => if k = a then b else memByte m a

/-- A memory without its entry for a location. -/
def memErase : Memory → Nat → Memory
  | [], _ => []
  | (k, c) :: m, a => if k = a then memErase m a else (k, c) :: memErase m a

/-- A memory with an entry put before the first higher location. -/
def memInsert : Memory → Nat → Byte → Memory
  | [], a, b => [(a, b)]
  | (k, c) :: m, a, b => if a < k then (a, b) :: (k, c) :: m else (k, c) :: memInsert m a b

/-- A memory with one byte set, in canonical form: the value an unlisted location reads as leaves no entry. -/
def memPut (m : Memory) (a : Nat) (b : Byte) : Memory :=
  if b = unlistedByte then memErase m a else memInsert (memErase m a) a b

/-- `ReadByte(a)` (R40): the byte at the offset in the store the address is routed to (R41). `MemRead` asks for mapped
addresses only (R44); the answer for another one is never used. -/
def readByte (s : State) (a : Word) : Byte :=
  match locationOf s.routes a with
  | some k => memByte s.mem k
  | none => unlistedByte

/-- `WriteByte(a, b)` (R40): the same byte set, so every address routed to it reads `b` (R41, DEDUCED, log entry 7). `MemWrite` asks for mapped
addresses only (R45); another one holds nothing and nothing changes. -/
def writeByte (s : State) (a : Word) (b : Byte) : State :=
  match locationOf s.routes a with
  | some k => setMem s (memPut s.mem k b)
  | none => s

/-! ### Wider accesses, composed from bytes (R44, R45) -/

/-- The first of `n` consecutive addresses, from `a` up modulo 2^32, that is not mapped (R44, R261). -/
def firstUnmapped (routes : List Route) (a : Word) : Nat → Option Word
  | 0 => none
  | n + 1 => if isMapped routes a then firstUnmapped routes (a + 1#32) n else some a

/-- `n` bytes at consecutive addresses, modulo 2^32. -/
def readBytes (s : State) (a : Word) : Nat → List Byte
  | 0 => []
  | n + 1 => readByte s a :: readBytes s (a + 1#32) n

/-- Bytes written at consecutive addresses, modulo 2^32. -/
def writeBytes (s : State) (a : Word) : List Byte → State
  | [] => s
  | b :: bs => writeBytes (writeByte s a b) (a + 1#32) bs

/-- `MemRead(addr, n)` with `bits = 8n` (R44): every byte is checked first, and the lowest-offset unmapped byte is
the error. -/
def memRead (bits : Nat) (s : State) (addr : Word) : Except Word (BitVec bits) :=
  match firstUnmapped s.routes addr (bits / 8) with
  | some a => .error a
  | none => .ok (BitVec.ofNat bits (leNat (readBytes s addr (bits / 8))))

/-- `MemWrite(addr, n, v)` with `bits = 8n` (R45): every byte is checked before any byte is written. -/
def memWrite {bits : Nat} (s : State) (addr : Word) (v : BitVec bits) : Except Word State :=
  match firstUnmapped s.routes addr (bits / 8) with
  | some a => .error a
  | none => .ok (writeBytes s addr (leBytes v))

/-! ### Raising a fault (R260 to R266)

This is all there is to taking an exception on this core: no register is saved, no mode changes, control goes nowhere
(R269), and there is no return (R271). -/

/-- The code of a MemoryFault by its access (R260). -/
def accessCode : Access → Nat
  | .fetch => 1
  | .load => 5
  | .store => 7

/-- The record of `InstructionAddressMisaligned(target)` (R264, R265). -/
def misalignedRecord (pc : Word) (inst : Option Word) (target : Word) : FaultRecord :=
  ⟨.instructionAddressMisaligned, 0, pc, inst, some target, none⟩

/-- The record of `MemoryFault(a, access)` (R261, R264). -/
def memoryRecord (pc : Word) (inst : Option Word) (a : Word) (access : Access) : FaultRecord :=
  ⟨.memoryFault, accessCode access, pc, inst, some a, some access⟩

/-- The record of `UnimplementedInstruction(pc, inst)` (R263, R264). -/
def unimplementedRecord (pc inst : Word) : FaultRecord :=
  ⟨.unimplementedInstruction, 2, pc, some inst, none, none⟩

/-- The state after a raise: the only change is the status (R262). -/
def raise (s : State) (r : FaultRecord) : State := setStatus s (.faulted r)

/-- A raise as the outcome of a step: the next state is Faulted (R106, R109). -/
def raised (s : State) (r : FaultRecord) : Result := .next (raise s r)

/-! ### Fetch and decode (R101, R104, R105) -/

/-- The word at the pc: the alignment check, then `MemRead(pc, 4)` (R101). -/
def fetch (s : State) : Except FaultRecord Word :=
  if s.pc.extractLsb' 0 2 = 0b00#2 then
    match memRead 32 s s.pc with
    | .error a => .error (memoryRecord s.pc none a .fetch)
    | .ok w => .ok w
  else .error (misalignedRecord s.pc none s.pc)

/-- The instruction at the pc, or the record of the first fault on the way to it (R105, R268). -/
def nextInstr (s : State) : Except FaultRecord Instr :=
  match fetch s with
  | .error r => .error r
  | .ok w =>
    match decodeWord w with
    | .ok i => .ok i
    | .error _ => .error (unimplementedRecord s.pc w)

/-! ### What the outside reads (R277) -/

/-- The per-cycle snapshot. -/
def snapshot (s : State) : Snapshot where
  pc     := s.pc
  regs   := Vector.ofFn (fun i : Fin 32 => readReg s (BitVec.ofNat 5 i.val))
  record := match s.status with
    | .running => none
    | .faulted r => some r

end Sys2Proof.Machine
end

