-- ==== Sys2Proof/Machine/Flags.lean ====
section
/-! DEFINITION. Comparisons. The core has no status flags (R31): a comparison writes 0 or 1 to a register, or decides a
branch. -/

namespace Sys2Proof.Machine

/-- `bit(c)` (R11). -/
def bit (c : Bool) : Word := if c then 1#32 else 0#32

/-- `a <s b` (R11). -/
def lessSigned (a b : Word) : Bool := decide (a.toInt < b.toInt)

/-- `a <u b` (R11). -/
def lessUnsigned (a b : Word) : Bool := decide (a.toNat < b.toNat)

/-- `a = b` (R200). -/
def equal (a b : Word) : Bool := decide (a = b)

end Sys2Proof.Machine
end

