-- ==== Sys2Proof/Machine/Operands.lean ====
section
/-! DEFINITION. The operand forms: where an instruction's inputs come from, and how its effect is committed (R106, R107).
Each shape reads its sources from the state at the start of the cycle and makes at most one register write, one memory
write and one change of the next pc. A meaning passes its own word, for the record of a fault (log entry 11). -/

namespace Sys2Proof.Machine

/-- `x[rd] <- v`, then pc + 4: how every instruction that only writes a register ends (R106, R28). -/
def writeAndAdvance (rd : RegIdx) (v : Word) (s : State) : Result :=
  .next (setPc (writeReg s rd v) (s.pc + 4#32))

/-- `op rd, rs1, rs2` (spec/41_alu_register.md, spec/43_muldiv.md). -/
def aluReg (op : Word → Word → Word) (rd rs1 rs2 : RegIdx) (s : State) : Result :=
  writeAndAdvance rd (op (readReg s rs1) (readReg s rs2)) s

/-- `op rd, rs1, imm` with the immediate sign-extended (R68). -/
def aluImm (op : Word → Word → Word) (rd rs1 : RegIdx) (imm : BitVec 12) (s : State) : Result :=
  writeAndAdvance rd (op (readReg s rs1) (sext32 imm)) s

/-- `op rd, rs1, shamt` (R73). -/
def shiftImm (op : Word → BitVec 5 → Word) (rd rs1 : RegIdx) (shamt : BitVec 5) (s : State) : Result :=
  writeAndAdvance rd (op (readReg s rs1) shamt) s

/-- The effective address of a load or a store, base plus signed displacement modulo 2^32. -/
def effectiveAddress (s : State) (rs1 : RegIdx) (imm : BitVec 12) : Word := readReg s rs1 + sext32 imm

/-- `jump(target)` (R111): the next pc, or the record when the target is not 4-aligned. -/
def jump (s : State) (inst target : Word) : Except FaultRecord Word :=
  if target.extractLsb' 0 2 = 0b00#2 then .ok target else .error (misalignedRecord s.pc (some inst) target)

/-- JAL and JALR: the jump, then the link; a misaligned target writes no link (R111, R190, R191). -/
def jumpAndLink (inst : Word) (rd : RegIdx) (target : Word) (s : State) : Result :=
  match jump s inst target with
  | .error r => raised s r
  | .ok t => .next (setPc (writeReg s rd (s.pc + 4#32)) t)

/-- A branch: `jump(pc + imm_b)` if the comparison holds, else pc + 4 (spec/46_branches.md). -/
def branch (taken : Word → Word → Bool) (inst : Word) (rs1 rs2 : RegIdx) (offset : BitVec 13) (s : State) : Result :=
  if taken (readReg s rs1) (readReg s rs2) then
    match jump s inst (s.pc + sext32 offset) with
    | .error r => raised s r
    | .ok t => .next (setPc s t)
  else .next (setPc s (s.pc + 4#32))

/-- A load of `bits` bits, extended to a word. The read is made for `rd = 0` too (decision D25). -/
def load (bits : Nat) (extend : BitVec bits → Word) (inst : Word) (rd rs1 : RegIdx) (imm : BitVec 12) (s : State) :
    Result :=
  match memRead bits s (effectiveAddress s rs1 imm) with
  | .error a => raised s (memoryRecord s.pc (some inst) a .load)
  | .ok v => writeAndAdvance rd (extend v) s

/-- A store of the low `bits` bits of `x[rs2]`. -/
def store (bits : Nat) (inst : Word) (rs1 rs2 : RegIdx) (imm : BitVec 12) (s : State) : Result :=
  match memWrite s (effectiveAddress s rs1 imm) ((readReg s rs2).extractLsb' 0 bits) with
  | .error a => raised s (memoryRecord s.pc (some inst) a .store)
  | .ok t => .next (setPc t (s.pc + 4#32))

end Sys2Proof.Machine
end

