-- ==== Sys2Proof/Machine/AluReg.lean ====
section
/-! DEFINITION. Register-register ALU instructions (spec/41_alu_register.md) and the operations they share with the
register-immediate ones. -/

namespace Sys2Proof.Machine

/-! ### The operations (R11) -/

def addOp (a b : Word) : Word := a + b
def subOp (a b : Word) : Word := a - b
def xorOp (a b : Word) : Word := a ^^^ b
def orOp (a b : Word) : Word := a ||| b
def andOp (a b : Word) : Word := a &&& b

/-- Set if less, signed (R123). -/
def sltOp (a b : Word) : Word := bit (lessSigned a b)

/-- Set if less, unsigned (R124). -/
def sltuOp (a b : Word) : Word := bit (lessUnsigned a b)

/-- `a << n` (R11). -/
def shiftLeft (a : Word) (n : BitVec 5) : Word := a <<< n.toNat

/-- `a >>u n` (R11). -/
def shiftRightZero (a : Word) (n : BitVec 5) : Word := a >>> n.toNat

/-- `a >>s n` (R11). -/
def shiftRightSign (a : Word) (n : BitVec 5) : Word := a.sshiftRight n.toNat

/-- The shift amount in a register: its low 5 bits (R122, R126, R127, decision D15). -/
def shiftAmount (b : Word) : BitVec 5 := b.extractLsb' 0 5

/-! ### The instructions -/

/-- ADD (R120). -/
def execAdd (rd rs1 rs2 : RegIdx) (s : State) : Result := aluReg addOp rd rs1 rs2 s

/-- SUB (R121). -/
def execSub (rd rs1 rs2 : RegIdx) (s : State) : Result := aluReg subOp rd rs1 rs2 s

/-- SLL (R122). -/
def execSll (rd rs1 rs2 : RegIdx) (s : State) : Result :=
  aluReg (fun a b => shiftLeft a (shiftAmount b)) rd rs1 rs2 s

/-- SLT (R123). -/
def execSlt (rd rs1 rs2 : RegIdx) (s : State) : Result := aluReg sltOp rd rs1 rs2 s

/-- SLTU (R124). -/
def execSltu (rd rs1 rs2 : RegIdx) (s : State) : Result := aluReg sltuOp rd rs1 rs2 s

/-- XOR (R125). -/
def execXor (rd rs1 rs2 : RegIdx) (s : State) : Result := aluReg xorOp rd rs1 rs2 s

/-- SRL (R126). -/
def execSrl (rd rs1 rs2 : RegIdx) (s : State) : Result :=
  aluReg (fun a b => shiftRightZero a (shiftAmount b)) rd rs1 rs2 s

/-- SRA (R127). -/
def execSra (rd rs1 rs2 : RegIdx) (s : State) : Result :=
  aluReg (fun a b => shiftRightSign a (shiftAmount b)) rd rs1 rs2 s

/-- OR (R128). -/
def execOr (rd rs1 rs2 : RegIdx) (s : State) : Result := aluReg orOp rd rs1 rs2 s

/-- AND (R129). -/
def execAnd (rd rs1 rs2 : RegIdx) (s : State) : Result := aluReg andOp rd rs1 rs2 s

end Sys2Proof.Machine
end

