-- ==== Sys2Proof/Machine/AluImm.lean ====
section
/-! DEFINITION. Register-immediate ALU instructions (spec/42_alu_immediate.md). -/

namespace Sys2Proof.Machine

/-- ADDI (R140). -/
def execAddi (rd rs1 : RegIdx) (imm : BitVec 12) (s : State) : Result := aluImm addOp rd rs1 imm s

/-- SLTI (R141). -/
def execSlti (rd rs1 : RegIdx) (imm : BitVec 12) (s : State) : Result := aluImm sltOp rd rs1 imm s

/-- SLTIU (R142): the immediate is sign-extended, then compared unsigned. -/
def execSltiu (rd rs1 : RegIdx) (imm : BitVec 12) (s : State) : Result := aluImm sltuOp rd rs1 imm s

/-- XORI (R143). -/
def execXori (rd rs1 : RegIdx) (imm : BitVec 12) (s : State) : Result := aluImm xorOp rd rs1 imm s

/-- ORI (R144). -/
def execOri (rd rs1 : RegIdx) (imm : BitVec 12) (s : State) : Result := aluImm orOp rd rs1 imm s

/-- ANDI (R145). -/
def execAndi (rd rs1 : RegIdx) (imm : BitVec 12) (s : State) : Result := aluImm andOp rd rs1 imm s

/-- SLLI (R146). -/
def execSlli (rd rs1 : RegIdx) (shamt : BitVec 5) (s : State) : Result := shiftImm shiftLeft rd rs1 shamt s

/-- SRLI (R147). -/
def execSrli (rd rs1 : RegIdx) (shamt : BitVec 5) (s : State) : Result := shiftImm shiftRightZero rd rs1 shamt s

/-- SRAI (R148). -/
def execSrai (rd rs1 : RegIdx) (shamt : BitVec 5) (s : State) : Result := shiftImm shiftRightSign rd rs1 shamt s

end Sys2Proof.Machine
end

