-- ==== Sys2Proof/Machine/Branches.lean ====
section
/-! DEFINITION. Conditional branches (spec/46_branches.md): one comparison each over the shape `branch`. -/

namespace Sys2Proof.Machine

/-- BEQ (R200). -/
def execBeq (rs1 rs2 : RegIdx) (offset : BitVec 13) (s : State) : Result :=
  branch equal (encode (.beq rs1 rs2 offset)) rs1 rs2 offset s

/-- BNE (R201). -/
def execBne (rs1 rs2 : RegIdx) (offset : BitVec 13) (s : State) : Result :=
  branch (fun a b => !equal a b) (encode (.bne rs1 rs2 offset)) rs1 rs2 offset s

/-- BLT (R202). -/
def execBlt (rs1 rs2 : RegIdx) (offset : BitVec 13) (s : State) : Result :=
  branch lessSigned (encode (.blt rs1 rs2 offset)) rs1 rs2 offset s

/-- BGE (R203). -/
def execBge (rs1 rs2 : RegIdx) (offset : BitVec 13) (s : State) : Result :=
  branch (fun a b => !lessSigned a b) (encode (.bge rs1 rs2 offset)) rs1 rs2 offset s

/-- BLTU (R204). -/
def execBltu (rs1 rs2 : RegIdx) (offset : BitVec 13) (s : State) : Result :=
  branch lessUnsigned (encode (.bltu rs1 rs2 offset)) rs1 rs2 offset s

/-- BGEU (R205). -/
def execBgeu (rs1 rs2 : RegIdx) (offset : BitVec 13) (s : State) : Result :=
  branch (fun a b => !lessUnsigned a b) (encode (.bgeu rs1 rs2 offset)) rs1 rs2 offset s

end Sys2Proof.Machine
end

