-- ==== Sys2Proof/Machine/FenceSystem.lean ====
section
/-! DEFINITION. FENCE and the SYSTEM group (spec/49_fence_system.md). -/

namespace Sys2Proof.Machine

/-- FENCE (R250, R55): nothing but pc + 4; its fields are ignored, whatever they hold. -/
def execFence (_fm _pred _succ : BitVec 4) (_rs1 _rd : RegIdx) (s : State) : Result :=
  .next (setPc s (s.pc + 4#32))

/-- Every word of the SYSTEM group (R251, R252): raises UnimplementedInstruction. -/
def execSystem (funct12 : BitVec 12) (rs1 : RegIdx) (funct3 : BitVec 3) (rd : RegIdx) (s : State) : Result :=
  raised s (unimplementedRecord s.pc (encode (.system funct12 rs1 funct3 rd)))

end Sys2Proof.Machine
end

