-- ==== Sys2Proof/Machine/Jumps.lean ====
section
/-! DEFINITION. Unconditional jumps (spec/45_jumps.md). -/

namespace Sys2Proof.Machine

/-- The target of JAL (R190, R112). -/
def jalTarget (s : State) (offset : BitVec 21) : Word := s.pc + sext32 offset

/-- The target of JALR: bit 0 of the sum is cleared (R191, conflict C3). -/
def jalrTarget (s : State) (rs1 : RegIdx) (imm : BitVec 12) : Word :=
  (readReg s rs1 + sext32 imm) &&& 0xFFFFFFFE#32

/-- JAL (R190). -/
def execJal (rd : RegIdx) (offset : BitVec 21) (s : State) : Result :=
  jumpAndLink (encode (.jal rd offset)) rd (jalTarget s offset) s

/-- JALR (R191): the target uses `x[rs1]` before the link is written (decision D20). -/
def execJalr (rd rs1 : RegIdx) (imm : BitVec 12) (s : State) : Result :=
  jumpAndLink (encode (.jalr rd rs1 imm)) rd (jalrTarget s rs1 imm) s

end Sys2Proof.Machine
end

