-- ==== Sys2Proof/Machine/Loads.lean ====
section
/-! DEFINITION. Loads (spec/47_loads.md): a width and an extension each over the shape `load`. -/

namespace Sys2Proof.Machine

/-- LB (R220). -/
def execLb (rd rs1 : RegIdx) (imm : BitVec 12) (s : State) : Result :=
  load 8 sext32 (encode (.lb rd rs1 imm)) rd rs1 imm s

/-- LH (R221). -/
def execLh (rd rs1 : RegIdx) (imm : BitVec 12) (s : State) : Result :=
  load 16 sext32 (encode (.lh rd rs1 imm)) rd rs1 imm s

/-- LW (R222). -/
def execLw (rd rs1 : RegIdx) (imm : BitVec 12) (s : State) : Result :=
  load 32 id (encode (.lw rd rs1 imm)) rd rs1 imm s

/-- LBU (R223). -/
def execLbu (rd rs1 : RegIdx) (imm : BitVec 12) (s : State) : Result :=
  load 8 zext32 (encode (.lbu rd rs1 imm)) rd rs1 imm s

/-- LHU (R224). -/
def execLhu (rd rs1 : RegIdx) (imm : BitVec 12) (s : State) : Result :=
  load 16 zext32 (encode (.lhu rd rs1 imm)) rd rs1 imm s

end Sys2Proof.Machine
end

