-- ==== Sys2Proof/Machine/MulDiv.lean ====
section
/-! DEFINITION. Multiply and divide instructions (spec/43_muldiv.md): exact integer arithmetic, narrowed at the end. -/

namespace Sys2Proof.Machine

/-! ### The operations -/

/-- Bits 63..32 of the 64-bit two's-complement form of an integer. -/
def highWord (p : Int) : Word := (BitVec.ofInt 64 p).extractLsb' 32 32

/-- The low 32 bits of the product (R160). -/
def mulOp (a b : Word) : Word := a * b

/-- The high word of the signed product (R161). -/
def mulhOp (a b : Word) : Word := highWord (a.toInt * b.toInt)

/-- The high word of the unsigned product (R162). -/
def mulhuOp (a b : Word) : Word := highWord ((a.toNat : Int) * (b.toNat : Int))

/-- The operands of signed division overflow, -2^31 and -1 (R164, R166, decision D12). -/
def divOverflows (a b : Word) : Bool := decide (a.toInt = -2 ^ 31) && decide (b.toInt = -1)

/-- Signed quotient, rounded toward zero; all ones by zero (R164, decisions D11, D12, D13). -/
def divOp (a b : Word) : Word :=
  if b.toInt = 0 then 0xFFFFFFFF#32
  else if divOverflows a b then 0x80000000#32
  else BitVec.ofInt 32 (a.toInt.tdiv b.toInt)

/-- Unsigned quotient; all ones by zero (R165, decision D11). -/
def divuOp (a b : Word) : Word :=
  if b.toNat = 0 then 0xFFFFFFFF#32 else BitVec.ofNat 32 (a.toNat / b.toNat)

/-- Signed remainder, with the sign of the dividend; the dividend by zero (R166, decisions D11, D12, D13). -/
def remOp (a b : Word) : Word :=
  if b.toInt = 0 then a
  else if divOverflows a b then 0x00000000#32
  else BitVec.ofInt 32 (a.toInt - b.toInt * a.toInt.tdiv b.toInt)

/-- Unsigned remainder; the dividend by zero (R167, decision D11). -/
def remuOp (a b : Word) : Word :=
  if b.toNat = 0 then a else BitVec.ofNat 32 (a.toNat % b.toNat)

/-! ### The instructions -/

/-- MUL (R160). -/
def execMul (rd rs1 rs2 : RegIdx) (s : State) : Result := aluReg mulOp rd rs1 rs2 s

/-- MULH (R161). -/
def execMulh (rd rs1 rs2 : RegIdx) (s : State) : Result := aluReg mulhOp rd rs1 rs2 s

/-- MULHSU (R163, decision D14): raises UnimplementedInstruction for every operand. -/
def execMulhsu (rd rs1 rs2 : RegIdx) (s : State) : Result :=
  raised s (unimplementedRecord s.pc (encode (.mulhsu rd rs1 rs2)))

/-- MULHU (R162). -/
def execMulhu (rd rs1 rs2 : RegIdx) (s : State) : Result := aluReg mulhuOp rd rs1 rs2 s

/-- DIV (R164). -/
def execDiv (rd rs1 rs2 : RegIdx) (s : State) : Result := aluReg divOp rd rs1 rs2 s

/-- DIVU (R165). -/
def execDivu (rd rs1 rs2 : RegIdx) (s : State) : Result := aluReg divuOp rd rs1 rs2 s

/-- REM (R166). -/
def execRem (rd rs1 rs2 : RegIdx) (s : State) : Result := aluReg remOp rd rs1 rs2 s

/-- REMU (R167). -/
def execRemu (rd rs1 rs2 : RegIdx) (s : State) : Result := aluReg remuOp rd rs1 rs2 s

end Sys2Proof.Machine
end

