-- ==== Sys2Proof/Machine/Stores.lean ====
section
/-! DEFINITION. Stores (spec/48_stores.md): a width each over the shape `store`. -/

namespace Sys2Proof.Machine

/-- SB (R235). -/
def execSb (rs1 rs2 : RegIdx) (imm : BitVec 12) (s : State) : Result :=
  store 8 (encode (.sb rs1 rs2 imm)) rs1 rs2 imm s

/-- SH (R236). -/
def execSh (rs1 rs2 : RegIdx) (imm : BitVec 12) (s : State) : Result :=
  store 16 (encode (.sh rs1 rs2 imm)) rs1 rs2 imm s

/-- SW (R237). -/
def execSw (rs1 rs2 : RegIdx) (imm : BitVec 12) (s : State) : Result :=
  store 32 (encode (.sw rs1 rs2 imm)) rs1 rs2 imm s

end Sys2Proof.Machine
end

