-- ==== Sys2Proof/Machine/UpperImm.lean ====
section
/-! DEFINITION. Upper-immediate instructions (spec/44_upper_immediate.md). -/

namespace Sys2Proof.Machine

/-- LUI (R180): the U-immediate verbatim. -/
def execLui (rd : RegIdx) (imm : BitVec 20) (s : State) : Result := writeAndAdvance rd (upper32 imm) s

/-- AUIPC (R181): the instruction's own address plus the U-immediate. -/
def execAuipc (rd : RegIdx) (imm : BitVec 20) (s : State) : Result := writeAndAdvance rd (s.pc + upper32 imm) s

end Sys2Proof.Machine
end

