-- ==== Sys2Proof/Machine/Step.lean ====
section
/-! DEFINITION. The step (R110), and a state with a given instruction where the next fetch reads it. -/

namespace Sys2Proof.Machine

/-- One cycle: fetch, decode, effect (R100, R110). A raise on the way to the instruction is a next state with status
Faulted (R262); a core that is Faulted already has no step (R266). -/
def step (s : State) : Host.Outcome State Fault Refusal :=
  match s.status with
  | .faulted r => .fault (.coreFaulted r)
  | .running =>
    match nextInstr s with
    | .error r => raised s r
    | .ok i => exec i s

/-- The state with the instruction of bits `w` (those from `nbits` up zero) in the four bytes at the pc, as a loaded image
would have it there (R291, log entry 5). Nothing else changes, so the next step runs it whenever the core is Running at
a 4-aligned pc whose four addresses are mapped and lead to four bytes, as it is at reset. -/
def State.withFetchWord (s : State) (nbits w : Nat) : State :=
  writeBytes s s.pc (leBytes (BitVec.ofNat 32 (w % 2 ^ nbits)))

end Sys2Proof.Machine
end

