-- ==== Sys2Proof/Machine/Boot.lean ====
section
/-! DEFINITION. The initial state of any parameters (R36, R290, R291), as the external collaborators establish it before
the first cycle. `State.reset` is `boot Config.standard`. -/

namespace Sys2Proof.Machine

/-- INIT_MEM (R36): each listed byte at its address, where that exists (R34). Of two entries for one byte the first counts,
and an entry for a number that is no 32-bit address counts for nothing (log entry 15). -/
def placeInitMem (s : State) : List (Nat × Byte) → State
  | [] => s
  | (a, b) :: rest =>
    if a < 2 ^ 32 then writeByte (placeInitMem s rest) (BitVec.ofNat 32 a) b else placeInitMem s rest

/-- The state before the first cycle (R36): IMAGE, verbatim at IMAGE_BASE and up (R291), over INIT_MEM. The entry of
INIT_REGS for x0 is ignored (decision D26). -/
def boot (c : Config) : State :=
  let empty : State := {
    regs   := Vector.ofFn (fun i : Fin 31 => c.initRegs[i.val + 1]'(by omega))
    pc     := c.resetPc
    mem    := []
    status := .running
    routes := c.routes }
  writeBytes (placeInitMem empty c.initMem) c.imageBase c.image

end Sys2Proof.Machine
end

