-- ==== Sys2Proof/Safety.lean ====
section
/-! DEFINITION. The terms claims use: what a safe run is, the invariant of the machine, and what a next state keeps of
the state before it. -/

namespace Sys2Proof.Safety

open Sys2Proof.Machine

/-! ### Safe runs -/

/-- The core goes on: the step gives a next state, and no fault was raised (R108). -/
def goesOn (s : State) : Prop := ∃ t, step s = .next t ∧ t.status = .running

/-- The instruction address is a multiple of 4 (R30, R49). -/
abbrev alignedAddress (a : Word) : Prop := a.toNat % 4 = 0

/-- All of the `n` bytes from `a` up, modulo 2^32, are mapped (R44, R45). -/
abbrev allMapped (s : State) (a : Word) (n : Nat) : Prop := ∀ k < n, isMapped s.routes (a + BitVec.ofNat 32 k) = true

/-- Byte `k` is the lowest-offset unmapped byte of an access of `n` bytes from `a` up (R261). -/
abbrev lowestUnmapped (s : State) (a : Word) (n k : Nat) : Prop :=
  k < n ∧ isMapped s.routes (a + BitVec.ofNat 32 k) = false ∧ allMapped s a k

/-- The `n` addresses from `a` up, modulo 2^32, lead to `n` different bytes: no two of them to one byte of one store (R41).
It is so for every `a` and every `n` up to 2^32 where each range has a store of its own. -/
abbrev distinctBytes (s : State) (a : Word) (n : Nat) : Prop :=
  ∀ j < n, ∀ k < n, sharesByte s.routes (a + BitVec.ofNat 32 j) (a + BitVec.ofNat 32 k) = true → j = k

/-! ### The invariant -/

/-- A fault record has the form of R264: the code of R260 for its kind and access, and the fields that are present. -/
def recordOk (r : FaultRecord) : Bool :=
  match r.kind, r.access with
  | .instructionAddressMisaligned, none => decide (r.code = 0) && r.addr.isSome
  | .memoryFault, some .fetch => decide (r.code = 1) && r.addr.isSome && r.inst.isNone
  | .memoryFault, some .load => decide (r.code = 5) && r.addr.isSome && r.inst.isSome
  | .memoryFault, some .store => decide (r.code = 7) && r.addr.isSome && r.inst.isSome
  | .unimplementedInstruction, none => decide (r.code = 2) && r.addr.isNone && r.inst.isSome
  | _, _ => false

/-- Some address leads to the location: at its offset in one of the ranges (R41). -/
def reachable (routes : List Route) (k : Nat) : Bool :=
  routes.any (fun r => decide (locationOf routes (r.first + BitVec.ofNat 32 k) = some k))

/-- The memory is in canonical form and lists no byte that no address leads to (R34). -/
def memoryOk (s : State) : Bool :=
  s.mem.wf && s.mem.all (fun c => reachable s.routes c.1)

/-- A Faulted core holds a record of the form of R264, with the pc it stopped at (R262). -/
def statusOk (s : State) : Bool :=
  match s.status with
  | .running => true
  | .faulted r => recordOk r && decide (r.pc = s.pc)

/-- The invariant: memory as `memoryOk` says, the pc a multiple of 4 (R30), the status as `statusOk` says. -/
abbrev Invariant (s : State) : Prop := memoryOk s = true ∧ alignedAddress s.pc ∧ statusOk s = true

/-! ### The initial state -/

/-- What INIT_MEM gives for an address (R36): the first entry for the byte it leads to. -/
def initByte (routes : List Route) (init : List (Nat × Byte)) (a : Word) : Byte :=
  match init.find? (fun p => decide (p.1 < 2 ^ 32) && sharesByte routes (BitVec.ofNat 32 p.1) a) with
  | some p => p.2
  | none => unlistedByte

/-! ### What a next state keeps -/

/-- No register changed. -/
def registersKept (s t : State) : Prop := ∀ r : RegIdx, readReg t r = readReg s r

/-- `v` stands in `rd`, nothing in x0, and every other register is unchanged (R22). -/
def registerWritten (s t : State) (rd : RegIdx) (v : Word) : Prop :=
  ∀ r : RegIdx, readReg t r = if r = 0#5 then 0#32 else if r = rd then v else readReg s r

/-- No byte of memory changed. -/
def memoryKept (s t : State) : Prop := ∀ a : Word, readByte t a = readByte s a

/-- `bytes 0`, `bytes 1`, ... were written, in that order, at `n` consecutive addresses from `a` up, modulo 2^32: an address
that leads to the byte of one of them reads the last one written there, every other address reads as before (R45; the sharing is R41 as log entry 7 reads it). -/
def bytesWritten (s t : State) (a : Word) (n : Nat) (bytes : Nat → Byte) : Prop :=
  (∀ (b : Word) (k : Nat), k < n → sharesByte s.routes (a + BitVec.ofNat 32 k) b = true →
    (∀ j < n, k < j → sharesByte s.routes (a + BitVec.ofNat 32 j) b = false) → readByte t b = bytes k) ∧
  (∀ b : Word, (∀ k < n, sharesByte s.routes (a + BitVec.ofNat 32 k) b = false) → readByte t b = readByte s b)

/-- The instruction wrote `v` to `rd` and went on to pc + 4; nothing else changed. -/
def writesRegister (s t : State) (rd : RegIdx) (v : Word) : Prop :=
  registerWritten s t rd v ∧ memoryKept s t ∧ t.pc = s.pc + 4#32 ∧ t.status = s.status ∧ t.routes = s.routes

/-- The instruction went to `target`; nothing else changed. -/
def goesTo (s t : State) (target : Word) : Prop :=
  registersKept s t ∧ memoryKept s t ∧ t.pc = target ∧ t.status = s.status ∧ t.routes = s.routes

/-- The instruction wrote the link to `rd` and went to `target`; nothing else changed. -/
def linksAndGoes (s t : State) (rd : RegIdx) (target : Word) : Prop :=
  registerWritten s t rd (s.pc + 4#32) ∧ memoryKept s t ∧ t.pc = target ∧ t.status = s.status ∧ t.routes = s.routes

/-- The instruction put `bytes 0`, `bytes 1`, ... at `n` consecutive addresses from `a` up, modulo 2^32, and went on to
pc + 4; nothing else changed, no other byte of memory among it. -/
def storesBytes (s t : State) (a : Word) (n : Nat) (bytes : Nat → Byte) : Prop :=
  bytesWritten s t a n bytes ∧ registersKept s t ∧ t.pc = s.pc + 4#32 ∧ t.status = s.status ∧ t.routes = s.routes

/-- A fault was raised with this record: the status is the only change (R262). -/
def faultsWith (s t : State) (r : FaultRecord) : Prop :=
  registersKept s t ∧ memoryKept s t ∧ t.pc = s.pc ∧ t.status = .faulted r ∧ t.routes = s.routes

/-! ### Which registers and bytes an instruction may touch (R24, R50) -/

/-- The destination register of an instruction that has one (R24). -/
def destination : Instr → Option RegIdx
  | .add rd _ _ => some rd
  | .sub rd _ _ => some rd
  | .sll rd _ _ => some rd
  | .slt rd _ _ => some rd
  | .sltu rd _ _ => some rd
  | .xor rd _ _ => some rd
  | .srl rd _ _ => some rd
  | .sra rd _ _ => some rd
  | .or rd _ _ => some rd
  | .and rd _ _ => some rd
  | .addi rd _ _ => some rd
  | .slti rd _ _ => some rd
  | .sltiu rd _ _ => some rd
  | .xori rd _ _ => some rd
  | .ori rd _ _ => some rd
  | .andi rd _ _ => some rd
  | .slli rd _ _ => some rd
  | .srli rd _ _ => some rd
  | .srai rd _ _ => some rd
  | .mul rd _ _ => some rd
  | .mulh rd _ _ => some rd
  | .mulhsu _ _ _ => none
  | .mulhu rd _ _ => some rd
  | .div rd _ _ => some rd
  | .divu rd _ _ => some rd
  | .rem rd _ _ => some rd
  | .remu rd _ _ => some rd
  | .lui rd _ => some rd
  | .auipc rd _ => some rd
  | .jal rd _ => some rd
  | .jalr rd _ _ => some rd
  | .beq _ _ _ => none
  | .bne _ _ _ => none
  | .blt _ _ _ => none
  | .bge _ _ _ => none
  | .bltu _ _ _ => none
  | .bgeu _ _ _ => none
  | .lb rd _ _ => some rd
  | .lh rd _ _ => some rd
  | .lw rd _ _ => some rd
  | .lbu rd _ _ => some rd
  | .lhu rd _ _ => some rd
  | .sb _ _ _ => none
  | .sh _ _ _ => none
  | .sw _ _ _ => none
  | .fence _ _ _ _ _ => none
  | .system _ _ _ _ => none

/-- The registers an instruction reads (R24). -/
def sources : Instr → List RegIdx
  | .add _ rs1 rs2 => [rs1, rs2]
  | .sub _ rs1 rs2 => [rs1, rs2]
  | .sll _ rs1 rs2 => [rs1, rs2]
  | .slt _ rs1 rs2 => [rs1, rs2]
  | .sltu _ rs1 rs2 => [rs1, rs2]
  | .xor _ rs1 rs2 => [rs1, rs2]
  | .srl _ rs1 rs2 => [rs1, rs2]
  | .sra _ rs1 rs2 => [rs1, rs2]
  | .or _ rs1 rs2 => [rs1, rs2]
  | .and _ rs1 rs2 => [rs1, rs2]
  | .addi _ rs1 _ => [rs1]
  | .slti _ rs1 _ => [rs1]
  | .sltiu _ rs1 _ => [rs1]
  | .xori _ rs1 _ => [rs1]
  | .ori _ rs1 _ => [rs1]
  | .andi _ rs1 _ => [rs1]
  | .slli _ rs1 _ => [rs1]
  | .srli _ rs1 _ => [rs1]
  | .srai _ rs1 _ => [rs1]
  | .mul _ rs1 rs2 => [rs1, rs2]
  | .mulh _ rs1 rs2 => [rs1, rs2]
  | .mulhsu _ _ _ => []
  | .mulhu _ rs1 rs2 => [rs1, rs2]
  | .div _ rs1 rs2 => [rs1, rs2]
  | .divu _ rs1 rs2 => [rs1, rs2]
  | .rem _ rs1 rs2 => [rs1, rs2]
  | .remu _ rs1 rs2 => [rs1, rs2]
  | .lui _ _ => []
  | .auipc _ _ => []
  | .jal _ _ => []
  | .jalr _ rs1 _ => [rs1]
  | .beq rs1 rs2 _ => [rs1, rs2]
  | .bne rs1 rs2 _ => [rs1, rs2]
  | .blt rs1 rs2 _ => [rs1, rs2]
  | .bge rs1 rs2 _ => [rs1, rs2]
  | .bltu rs1 rs2 _ => [rs1, rs2]
  | .bgeu rs1 rs2 _ => [rs1, rs2]
  | .lb _ rs1 _ => [rs1]
  | .lh _ rs1 _ => [rs1]
  | .lw _ rs1 _ => [rs1]
  | .lbu _ rs1 _ => [rs1]
  | .lhu _ rs1 _ => [rs1]
  | .sb rs1 rs2 _ => [rs1, rs2]
  | .sh rs1 rs2 _ => [rs1, rs2]
  | .sw rs1 rs2 _ => [rs1, rs2]
  | .fence _ _ _ _ _ => []
  | .system _ _ _ _ => []

/-- The bytes an instruction stores to: the effective address and the width; none for all but the stores (R50). -/
def storeSpan (s : State) : Instr → Option (Word × Nat)
  | .sb rs1 _ imm => some (effectiveAddress s rs1 imm, 1)
  | .sh rs1 _ imm => some (effectiveAddress s rs1 imm, 2)
  | .sw rs1 _ imm => some (effectiveAddress s rs1 imm, 4)
  | _ => none

/-- Where the instruction goes when it raises nothing (R28, R112). -/
def nextPc (s : State) : Instr → Word
  | .jal _ offset => s.pc + sext32 offset
  | .jalr _ rs1 imm => (readReg s rs1 + sext32 imm) &&& ~~~1#32
  | .beq rs1 rs2 offset => if readReg s rs1 = readReg s rs2 then s.pc + sext32 offset else s.pc + 4#32
  | .bne rs1 rs2 offset => if readReg s rs1 ≠ readReg s rs2 then s.pc + sext32 offset else s.pc + 4#32
  | .blt rs1 rs2 offset =>
    if (readReg s rs1).toInt < (readReg s rs2).toInt then s.pc + sext32 offset else s.pc + 4#32
  | .bge rs1 rs2 offset =>
    if (readReg s rs2).toInt ≤ (readReg s rs1).toInt then s.pc + sext32 offset else s.pc + 4#32
  | .bltu rs1 rs2 offset =>
    if (readReg s rs1).toNat < (readReg s rs2).toNat then s.pc + sext32 offset else s.pc + 4#32
  | .bgeu rs1 rs2 offset =>
    if (readReg s rs2).toNat ≤ (readReg s rs1).toNat then s.pc + sext32 offset else s.pc + 4#32
  | _ => s.pc + 4#32

end Sys2Proof.Safety
end

