-- ==== Sys2Proof/Certificates/Slice0/Obligations.lean ====
section
/-! DEFINITION. The statements for the provers. Each docstring names the rules of spec/ it formalises. Where a rule
carries a mark of the spec's own ([decision], [derived]), the statement's basis in OBLIGATIONS.json is 'derived' and its
docstring names the decision. The match and mask of an instruction are those its own rule gives; where the spec marks a
value in them as general knowledge (K5 to K9 of spec/93_implementation_defined.md), that is the spec's mark. -/

open Sys2Proof Sys2Proof.Machine Sys2Proof.Safety

namespace Sys2Proof.Claims

/-! ### Forms shared by the statements about one instruction -/

/-- The decoder reads `mk w` from exactly the words with this match and mask. -/
def selects (value mask : Word) (mk : Word → Instr) : Prop :=
  ∀ w : Word, decodeWord w = .ok (mk w) ↔ w &&& mask = value

/-- An R-format instruction: its encoding, and for every state and operands a next state in which `rd` holds a value that
stands in relation `result` to `x[rs1]` and `x[rs2]`, and nothing else but the pc changed. -/
def registerForm (value mask : Word) (mk : RegIdx → RegIdx → RegIdx → Instr) (result : Word → Word → Word → Prop) :
    Prop :=
  selects value mask (fun w => mk (rdOf w) (rs1Of w) (rs2Of w)) ∧
  ∀ (rd rs1 rs2 : RegIdx) (s : State), ∃ t v, exec (mk rd rs1 rs2) s = .next t ∧ writesRegister s t rd v ∧
    result (readReg s rs1) (readReg s rs2) v

/-- The same for a register and a 12-bit immediate, which `result` takes sign-extended. -/
def immediateForm (value mask : Word) (mk : RegIdx → RegIdx → BitVec 12 → Instr) (result : Word → Word → Word → Prop) :
    Prop :=
  selects value mask (fun w => mk (rdOf w) (rs1Of w) (fieldI w)) ∧
  ∀ (rd rs1 : RegIdx) (imm : BitVec 12) (s : State), ∃ t v, exec (mk rd rs1 imm) s = .next t ∧
    writesRegister s t rd v ∧ result (readReg s rs1) (sext32 imm) v

/-- The same for a register and a shift amount. -/
def shiftForm (value mask : Word) (mk : RegIdx → RegIdx → BitVec 5 → Instr) (result : Word → Nat → Word → Prop) :
    Prop :=
  selects value mask (fun w => mk (rdOf w) (rs1Of w) (shamtOf w)) ∧
  ∀ (rd rs1 : RegIdx) (shamt : BitVec 5) (s : State), ∃ t v, exec (mk rd rs1 shamt) s = .next t ∧
    writesRegister s t rd v ∧ result (readReg s rs1) shamt.toNat v

/-- A branch: its encoding; not taken it goes to pc + 4 whatever its offset, taken to a 4-aligned target it goes there,
taken to another it raises InstructionAddressMisaligned. -/
def branchForm (value mask : Word) (mk : RegIdx → RegIdx → BitVec 13 → Instr) (taken : Word → Word → Prop) : Prop :=
  selects value mask (fun w => mk (rs1Of w) (rs2Of w) (fieldB w)) ∧
  ∀ (rs1 rs2 : RegIdx) (offset : BitVec 13) (s : State),
    (¬ taken (readReg s rs1) (readReg s rs2) →
      ∃ t, exec (mk rs1 rs2 offset) s = .next t ∧ goesTo s t (s.pc + 4#32)) ∧
    (taken (readReg s rs1) (readReg s rs2) → alignedAddress (s.pc + sext32 offset) →
      ∃ t, exec (mk rs1 rs2 offset) s = .next t ∧ goesTo s t (s.pc + sext32 offset)) ∧
    (taken (readReg s rs1) (readReg s rs2) → ¬ alignedAddress (s.pc + sext32 offset) →
      ∃ t, exec (mk rs1 rs2 offset) s = .next t ∧
        faultsWith s t ⟨.instructionAddressMisaligned, 0, s.pc, some (encode (mk rs1 rs2 offset)),
          some (s.pc + sext32 offset), none⟩)

/-- A load of `n` bytes: its encoding; with every byte mapped, `rd` holds a value in relation `result` to the bytes; with
an unmapped byte it raises MemoryFault for the lowest-offset one. -/
def loadForm (value mask : Word) (mk : RegIdx → RegIdx → BitVec 12 → Instr) (n : Nat)
    (result : (Nat → Byte) → Word → Prop) : Prop :=
  selects value mask (fun w => mk (rdOf w) (rs1Of w) (fieldI w)) ∧
  ∀ (rd rs1 : RegIdx) (imm : BitVec 12) (s : State),
    (allMapped s (readReg s rs1 + sext32 imm) n →
      ∃ t v, exec (mk rd rs1 imm) s = .next t ∧ writesRegister s t rd v ∧
        result (fun k => readByte s (readReg s rs1 + sext32 imm + BitVec.ofNat 32 k)) v) ∧
    (∀ k, lowestUnmapped s (readReg s rs1 + sext32 imm) n k →
      ∃ t, exec (mk rd rs1 imm) s = .next t ∧
        faultsWith s t ⟨.memoryFault, 5, s.pc, some (encode (mk rd rs1 imm)),
          some (readReg s rs1 + sext32 imm + BitVec.ofNat 32 k), some .load⟩)

/-- A store of `n` bytes with every byte mapped: its encoding, the bytes it stores, and its frame. -/
def storeForm (value mask : Word) (mk : RegIdx → RegIdx → BitVec 12 → Instr) (n : Nat) : Prop :=
  selects value mask (fun w => mk (rs1Of w) (rs2Of w) (fieldS w)) ∧
  ∀ (rs1 rs2 : RegIdx) (imm : BitVec 12) (s : State), allMapped s (readReg s rs1 + sext32 imm) n →
    ∃ t, exec (mk rs1 rs2 imm) s = .next t ∧
      storesBytes s t (readReg s rs1 + sext32 imm) n (fun k => (readReg s rs2).extractLsb' (8 * k) 8)

/-- A store of `n` bytes with an unmapped byte raises MemoryFault for the lowest-offset one, and writes no byte. -/
def storeFaultForm (mk : RegIdx → RegIdx → BitVec 12 → Instr) (n : Nat) : Prop :=
  ∀ (rs1 rs2 : RegIdx) (imm : BitVec 12) (s : State) (k : Nat), lowestUnmapped s (readReg s rs1 + sext32 imm) n k →
    ∃ t, exec (mk rs1 rs2 imm) s = .next t ∧
      faultsWith s t ⟨.memoryFault, 7, s.pc, some (encode (mk rs1 rs2 imm)),
        some (readReg s rs1 + sext32 imm + BitVec.ofNat 32 k), some .store⟩

/-- The verdict on a word is Unimplemented: no instruction is selected, or one whose own effect is to raise
UnimplementedInstruction (log entry 12). -/
def verdictUnimplemented (w : Word) : Prop :=
  (∃ r, decodeWord w = .error r) ∨ (∃ rd rs1 rs2, decodeWord w = .ok (.mulhsu rd rs1 rs2)) ∨
  (∃ f rs1 g rd, decodeWord w = .ok (.system f rs1 g rd))

/-- The opcodes that select a group, less SYSTEM (R74). -/
def groups : List (BitVec 5) :=
  [0b00000, 0b00011, 0b00100, 0b00101, 0b01000, 0b01100, 0b01101, 0b11000, 0b11001, 0b11011]

/-- The conditions of R80, in its order. -/
def conditionsOfR80 (w : Word) : Prop :=
  w.extractLsb' 0 2 ≠ 0b11#2 ∨
  (w.extractLsb' 2 5 ∉ groups ∧ w.extractLsb' 2 5 ≠ 0b11100#5) ∨
  (w.extractLsb' 2 5 = 0b01100#5 ∧
    ¬ (w.extractLsb' 25 7 = 0b0000000#7 ∨ w.extractLsb' 25 7 = 0b0000001#7 ∨
      (w.extractLsb' 25 7 = 0b0100000#7 ∧ (w.extractLsb' 12 3 = 0b000#3 ∨ w.extractLsb' 12 3 = 0b101#3)))) ∨
  (w.extractLsb' 2 5 = 0b00100#5 ∧
    (w.extractLsb' 12 3 = 0b001#3 ∧ w.extractLsb' 25 7 ≠ 0b0000000#7 ∨
     w.extractLsb' 12 3 = 0b101#3 ∧ w.extractLsb' 25 7 ≠ 0b0000000#7 ∧ w.extractLsb' 25 7 ≠ 0b0100000#7)) ∨
  (w.extractLsb' 2 5 = 0b11000#5 ∧ (w.extractLsb' 12 3 = 0b010#3 ∨ w.extractLsb' 12 3 = 0b011#3)) ∨
  (w.extractLsb' 2 5 = 0b00000#5 ∧
    (w.extractLsb' 12 3 = 0b011#3 ∨ w.extractLsb' 12 3 = 0b110#3 ∨ w.extractLsb' 12 3 = 0b111#3)) ∨
  (w.extractLsb' 2 5 = 0b01000#5 ∧ 3 ≤ (w.extractLsb' 12 3).toNat) ∨
  (w.extractLsb' 2 5 = 0b11001#5 ∧ w.extractLsb' 12 3 ≠ 0b000#3) ∨
  (w.extractLsb' 2 5 = 0b00011#5 ∧ w.extractLsb' 12 3 ≠ 0b000#3) ∨
  w.extractLsb' 2 5 = 0b11100#5 ∨
  (w.extractLsb' 2 5 = 0b01100#5 ∧ w.extractLsb' 25 7 = 0b0000001#7 ∧ w.extractLsb' 12 3 = 0b010#3)

/-! ### Two states that differ in their stores alone -/

/-- The states show the same registers, pc, status and combined map of R41: which addresses are mapped, which of them lead
to one byte (log entry 7), and what each reads. The lists of routes, their stores and their offsets may differ. -/
def sameCombinedMap (s u : State) : Prop :=
  registersKept s u ∧ u.pc = s.pc ∧ u.status = s.status ∧ memoryKept s u ∧
  (∀ a : Word, isMapped u.routes a = isMapped s.routes a) ∧
  (∀ a b : Word, sharesByte u.routes a b = sharesByte s.routes a b)

end Sys2Proof.Claims

open Sys2Proof.Claims

/-! ### Registers, memory, routing, the initial state -/

/-- R21, R22: x0 reads 0 after any sequence of writes to it; another register reads the value last written to it in any
sequence of writes, or what it held before if none wrote it. -/
def Obligations.RegisterZeroIsConstantOthersHoldLastWrite : Prop :=
  ∀ s : State,
    readReg s 0#5 = 0#32 ∧
    (∀ vs : List Word, vs.foldl (fun u v => writeReg u 0#5 v) s = s) ∧
    (∀ (i : RegIdx) (v : Word), i ≠ 0#5 → readReg (writeReg s i v) i = v) ∧
    (∀ (i j : RegIdx) (v : Word), j ≠ i → readReg (writeReg s i v) j = readReg s j) ∧
    (∀ (ws : List (RegIdx × Word)) (i : RegIdx), i ≠ 0#5 →
      readReg (ws.foldl (fun u p => writeReg u p.1 p.2) s) i =
        match ws.reverse.find? (fun p => p.1 == i) with
        | some p => p.2
        | none => readReg s i)

/-- R36, R290, R291 with the open parameters of R9 (decisions D7 to D10, D26): the initial state of ANY parameters whose
image bytes are all mapped. Byte `k` of the image is at IMAGE_BASE + k, and at every address that leads to the same byte,
unless a later byte of the image goes there; where each range has a store of its own none does. Another mapped byte holds
INIT_MEM. The model's, not the spec's: that ranges over one store share its bytes (DEDUCED, log entry 7); which of several
image bytes for one byte stands, that of several INIT_MEM entries for one byte the first counts, and that an entry for no
32-bit address counts for nothing (DESIGN CHOICE, log entry 15); what a byte INIT_MEM does not list holds (DESIGN CHOICE,
log entry 3). -/
def Obligations.InitialStateFollowsTheParameters : Prop :=
  ∀ c : Config, c.image.length ≤ 2 ^ 32 →
    (∀ k < c.image.length, isMapped c.routes (c.imageBase + BitVec.ofNat 32 k) = true) →
    readReg (boot c) 0#5 = 0#32 ∧
    (∀ i : RegIdx, i ≠ 0#5 → readReg (boot c) i = c.initRegs[i.toNat]'(by have := i.isLt; omega)) ∧
    (boot c).pc = c.resetPc ∧ (boot c).status = .running ∧ (boot c).routes = c.routes ∧
    (∀ (a : Word) (k : Nat) (h : k < c.image.length),
      sharesByte c.routes (c.imageBase + BitVec.ofNat 32 k) a = true →
      (∀ j < c.image.length, k < j → sharesByte c.routes (c.imageBase + BitVec.ofNat 32 j) a = false) →
      readByte (boot c) a = c.image[k]) ∧
    ((c.routes.map Route.store).Nodup →
      ∀ (k : Nat) (h : k < c.image.length), readByte (boot c) (c.imageBase + BitVec.ofNat 32 k) = c.image[k]) ∧
    (∀ a : Word, isMapped c.routes a = true →
      (∀ k < c.image.length, sharesByte c.routes (c.imageBase + BitVec.ofNat 32 k) a = false) →
      readByte (boot c) a = initByte c.routes c.initMem a)

/-- The invariant `Invariant` holds at reset, with the parameters of log entries 1 to 5 (the model's choice, D7 to D10). -/
def Obligations.ResetSatisfiesTheInvariant : Prop :=
  Invariant State.reset ∧ State.reset = boot Config.standard ∧ State.reset.status = .running ∧ readReg State.reset 0#5 = 0#32

/-- R41 (decision D27), R42: the first pair whose range contains the address wins, MAPPED is the union of the ranges, the
one full-range store maps every address, and a bounded RAM maps exactly its own. That a range whose last address is below
its first contains none is the model's choice (log entry 16). -/
def Obligations.RoutingTakesTheFirstRangeThatHolds : Prop :=
  (∀ (before after : List Route) (r : Route) (a : Word),
    (∀ q ∈ before, ¬ (q.first.toNat ≤ a.toNat ∧ a.toNat ≤ q.last.toNat)) →
    r.first.toNat ≤ a.toNat → a.toNat ≤ r.last.toNat →
    routeOf (before ++ r :: after) a = some (r.store, a - r.first)) ∧
  (∀ (routes : List Route) (a : Word),
    isMapped routes a = true ↔ ∃ r ∈ routes, r.first.toNat ≤ a.toNat ∧ a.toNat ≤ r.last.toNat) ∧
  (∀ a : Word, isMapped fullRoutes a = true) ∧
  (∀ (base a : Word) (size : Nat), 0 < size → base.toNat + size ≤ 2 ^ 32 →
    (isMapped [⟨base, base + BitVec.ofNat 32 (size - 1), 0⟩] a = true ↔
      base.toNat ≤ a.toNat ∧ a.toNat < base.toNat + size))

/-- The byte accessed is the one at the offset in the pair's store (R41). That ranges over one store therefore share its
bytes, against R34 and R59 read as giving each address a byte of its own, is the model's reading (DEDUCED, log entry 7): two
addresses lead to one byte exactly when they are routed to one store at one offset; a byte written through one is read
through the other, and no address that leads to another byte reads anything new. Where each range has a store of its own,
no two addresses do. -/
def Obligations.RangesOverOneStoreShareItsBytes : Prop :=
  (∀ (routes : List Route) (a b : Word) (store store' : Nat) (offset offset' : Word),
    routeOf routes a = some (store, offset) → routeOf routes b = some (store', offset') →
    (sharesByte routes a b = true ↔ store = store' ∧ offset = offset')) ∧
  (∀ (routes : List Route) (a b : Word), sharesByte routes a b = true →
    isMapped routes a = true ∧ isMapped routes b = true) ∧
  (∀ (s : State) (a b : Word) (v : Byte),
    (sharesByte s.routes a b = true → readByte s b = readByte s a ∧ readByte (writeByte s a v) b = v) ∧
    (sharesByte s.routes a b = false → readByte (writeByte s a v) b = readByte s b)) ∧
  (∀ (routes : List Route) (a b : Word), (routes.map Route.store).Nodup → sharesByte routes a b = true → a = b)

/-- R41: "neither the number of stores nor their order changes any rule": a step sees the combined map alone. From two
states that show the same one, whatever their routes, the steps have one outcome, and the next states again show the same
one. That which addresses lead to one byte is part of the map is the model's reading of R41 (DEDUCED, log entry 7). -/
def Obligations.StepSeesOnlyTheCombinedMap : Prop :=
  ∀ s u : State, sameCombinedMap s u →
    (∀ t, step s = .next t → ∃ v, step u = .next v ∧ sameCombinedMap t v) ∧
    (∀ f, step s = .fault f → step u = .fault f)

/-- R43, R44, R46, R261 (decisions D1, D5, D6): a read of 1, 2 or 4 bytes at any address. -/
def Obligations.MemReadComposesBytesLittleEndian : Prop :=
  ∀ (n : Nat), n = 1 ∨ n = 2 ∨ n = 4 → ∀ (s : State) (addr : Word),
    (allMapped s addr n → ∃ v, memRead (8 * n) s addr = .ok v ∧
      ∀ k < n, v.extractLsb' (8 * k) 8 = readByte s (addr + BitVec.ofNat 32 k)) ∧
    (∀ k, lowestUnmapped s addr n k → memRead (8 * n) s addr = .error (addr + BitVec.ofNat 32 k))

/-- R43, R45, R46, R261 (decisions D1, D5, D6, D21): a write of 1, 2 or 4 bytes at any address, the bytes in increasing
order; a write that faults gives no state, so it writes no byte. That an address which leads to the byte of one of those
written reads the last one put there is the model's reading of R41 (DEDUCED, log entry 7). -/
def Obligations.MemWriteChecksEveryByteThenWritesLittleEndian : Prop :=
  ∀ (n : Nat), n = 1 ∨ n = 2 ∨ n = 4 → ∀ (s : State) (addr : Word) (v : BitVec (8 * n)),
    (allMapped s addr n → ∃ t, memWrite s addr v = .ok t ∧
      bytesWritten s t addr n (fun k => v.extractLsb' (8 * k) 8) ∧
      registersKept s t ∧ t.pc = s.pc ∧ t.status = s.status ∧ t.routes = s.routes) ∧
    (∀ k, lowestUnmapped s addr n k → memWrite s addr v = .error (addr + BitVec.ofNat 32 k))

/-- R59, R47 (derived marks): a word written and read back whole, by bytes, and by halfwords at every offset inside. Its
four addresses lead to four bytes; where two of them lead to one byte of one store, which is the model's reading of R41
(DEDUCED, log entry 7), the last written there stands in both, as MemWriteChecksEveryByteThenWritesLittleEndian says. -/
def Obligations.WordRoundTripAtEveryWidth : Prop :=
  ∀ (s : State) (a v : Word), allMapped s a 4 → distinctBytes s a 4 → ∃ t, memWrite s a v = .ok t ∧
    memRead 32 t a = .ok v ∧
    (∀ k < 4, memRead 8 t (a + BitVec.ofNat 32 k) = .ok (v.extractLsb' (8 * k) 8)) ∧
    (∀ k < 3, memRead 16 t (a + BitVec.ofNat 32 k) = .ok (v.extractLsb' (8 * k) 16))

/-- The canonical form of memory (the model's, R34, log entries 3 and 7): every byte write keeps it, so equal memories are
equal data: writing back the byte that stood there gives the state again, and of two writes at addresses that lead to one
byte only the later counts (that two may is the model's reading of R41, DEDUCED, log entry 7). -/
def Obligations.ByteWriteKeepsTheCanonicalForm : Prop :=
  ∀ (s : State) (a c : Word) (b d : Byte), s.mem.wf = true →
    (writeByte s a b).mem.wf = true ∧
    (isMapped s.routes a = true → readByte (writeByte s a b) a = b) ∧
    writeByte (writeByte s a b) a (readByte s a) = s ∧
    (sharesByte s.routes a c = true → writeByte (writeByte s a b) c d = writeByte s a d)

/-! ### Encoding -/

/-- R62 to R66: the fields, as numbers; `inst[6:0]` is the opcode and then 11 when the low bits are 11. -/
def Obligations.FieldsAreTheirBitRanges : Prop :=
  ∀ w : Word,
    (opcodeOf w).toNat = w.toNat / 2 ^ 2 % 2 ^ 5 ∧
    (w.toNat % 2 ^ 2 = 3 → w.toNat % 2 ^ 7 = (opcodeOf w).toNat * 2 ^ 2 + 3) ∧
    (rdOf w).toNat = w.toNat / 2 ^ 7 % 2 ^ 5 ∧
    (rs1Of w).toNat = w.toNat / 2 ^ 15 % 2 ^ 5 ∧
    (rs2Of w).toNat = w.toNat / 2 ^ 20 % 2 ^ 5 ∧
    (funct3Of w).toNat = w.toNat / 2 ^ 12 % 2 ^ 3 ∧
    (funct7Of w).toNat = w.toNat / 2 ^ 25 % 2 ^ 7 ∧
    (funct10Of w).toNat = (funct7Of w).toNat * 2 ^ 3 + (funct3Of w).toNat

/-- R68, R70, R71, R72: bit k of imm_i, imm_b, imm_u and imm_j. -/
def Obligations.ImmediatesGatherTheirBits : Prop :=
  ∀ (w : Word) (k : Nat), k < 32 →
    (immI w).getLsbD k = w.getLsbD (if k < 11 then 20 + k else 31) ∧
    (immB w).getLsbD k =
      (if k = 0 then false else if k < 5 then w.getLsbD (7 + k) else if k < 11 then w.getLsbD (20 + k)
        else if k = 11 then w.getLsbD 7 else w.getLsbD 31) ∧
    (immU w).getLsbD k = (if k < 12 then false else w.getLsbD k) ∧
    (immJ w).getLsbD k =
      (if k = 0 then false else if k < 11 then w.getLsbD (20 + k) else if k = 11 then w.getLsbD 20
        else if k < 20 then w.getLsbD k else w.getLsbD 31)

/-- R69 ([derived] from the source's text): bit k of imm_s. -/
def Obligations.StoreImmediateGathersItsBits : Prop :=
  ∀ (w : Word) (k : Nat), k < 32 →
    (immS w).getLsbD k = (if k < 5 then w.getLsbD (7 + k) else if k < 11 then w.getLsbD (20 + k) else w.getLsbD 31)

/-- R67, R60: decoding the word of any well-formed instruction gives it back, every operand at every value. -/
def Obligations.DecodeOfEncodeIsTheInstruction : Prop :=
  ∀ i : Instr, wellFormed i = true → decodeWord (encode i) = .ok i

/-- R67, R80, R264: every word the decoder selects an instruction for is the word of that instruction, which is
well-formed; so the raw word of a fault record is the fetched one (log entry 11). -/
def Obligations.EncodeOfDecodeIsTheWord : Prop :=
  ∀ (w : Word) (i : Instr), decodeWord w = .ok i → encode i = w ∧ wellFormed i = true

/-- R80, whose conditions write out R61 (decision D17), R76 (D16), R77 (D19), R79 (D18) and R163 (D14): the verdict is
Unimplemented exactly under its conditions, and executing a word under one of them raises UnimplementedInstruction(pc,
inst), with the record of decision D22. That the verdict covers the words that decode to MULHSU and to the SYSTEM group,
which the model raises for as their effect, is the model's choice (`verdictUnimplemented`, log entry 12). -/
def Obligations.UnimplementedVerdictIsExactlyItsConditions : Prop :=
  ∀ w : Word, (verdictUnimplemented w ↔ conditionsOfR80 w) ∧
    ∀ s : State, s.status = .running → fetch s = .ok w → conditionsOfR80 w →
      ∃ t, step s = .next t ∧ faultsWith s t ⟨.unimplementedInstruction, 2, s.pc, some w, none, none⟩

/-- A few words written out in spec/, each beside the rule that gives it: `add` R120, `sub` R121, `lui` R180, `addi` R68, `sw`
R69, `beq` R70, `jal` R72, `fence` R250, `ecall` R251, `lw` R222, `div` R164, `jalr` R191. -/
def Obligations.WordsOfTheSpecDecode : Prop :=
  decodeWord 0x003100B3#32 = .ok (.add 1 2 3) ∧ decodeWord 0x403100B3#32 = .ok (.sub 1 2 3) ∧
  decodeWord 0x123450B7#32 = .ok (.lui 1 0x12345) ∧ decodeWord 0xFFF10093#32 = .ok (.addi 1 2 (-1)) ∧
  decodeWord 0xFE532E23#32 = .ok (.sw 6 5 (-4)) ∧ decodeWord 0xFE208EE3#32 = .ok (.beq 1 2 (-4)) ∧
  decodeWord 0x001000EF#32 = .ok (.jal 1 2048) ∧ decodeWord 0x0FF0000F#32 = .ok (.fence 0 15 15 0 0) ∧
  decodeWord 0x00000073#32 = .ok (.system 0 0 0 0) ∧ decodeWord 0x00032283#32 = .ok (.lw 5 6 0) ∧
  decodeWord 0x023140B3#32 = .ok (.div 1 2 3) ∧ decodeWord 0x005080E7#32 = .ok (.jalr 1 1 5)

/-! ### The cycle -/

/-- R101, R104, R105, R110: with the four bytes at a 4-aligned pc mapped, the fetched word is theirs, least significant
byte first, and when it decodes to an instruction the step is that instruction's effect. -/
def Obligations.StepRunsTheDecodedInstruction : Prop :=
  ∀ (s : State) (i : Instr), s.status = .running → alignedAddress s.pc → allMapped s s.pc 4 →
    decodeWord (readByte s (s.pc + 3#32) ++ readByte s (s.pc + 2#32) ++ readByte s (s.pc + 1#32) ++ readByte s s.pc)
      = .ok i →
    step s = exec i s

/-- R105: once a word is fetched, the step raises UnimplementedInstruction(pc, inst), with the record of decision D22, if the
verdict on it is Unimplemented, and is the effect of the instruction selected otherwise. That the verdict covers the words
that decode to MULHSU and to the SYSTEM group, which the model raises for as their effect, is the model's choice
(`verdictUnimplemented`, log entry 12). -/
def Obligations.DispatchRaisesOrRunsTheInstruction : Prop :=
  ∀ (s : State) (w : Word), s.status = .running → fetch s = .ok w →
    (verdictUnimplemented w →
      ∃ t, step s = .next t ∧ faultsWith s t ⟨.unimplementedInstruction, 2, s.pc, some w, none, none⟩) ∧
    (¬ verdictUnimplemented w → ∃ i, decodeWord w = .ok i ∧ step s = exec i s)

/-- R101, R265, R268 (decisions D3, D6, D22, D23): the fetch faults, the alignment check first. -/
def Obligations.StepRaisesTheFetchFaults : Prop :=
  ∀ s : State, s.status = .running →
    (¬ alignedAddress s.pc → ∃ t, step s = .next t ∧
      faultsWith s t ⟨.instructionAddressMisaligned, 0, s.pc, none, some s.pc, none⟩) ∧
    (alignedAddress s.pc → ∀ k, lowestUnmapped s s.pc 4 k → ∃ t, step s = .next t ∧
      faultsWith s t ⟨.memoryFault, 1, s.pc, none, some (s.pc + BitVec.ofNat 32 k), some .fetch⟩)

/-- R100, R109, R266: a Running core always has a next state, and a Faulted one has no step (the model's outcome for
that is the fault `coreFaulted`, log entry 9). -/
def Obligations.StepIsTotalOnRunningAndNoneWhenFaulted : Prop :=
  ∀ s : State, (s.status = .running → ∃ t, step s = .next t) ∧
    (∀ r, s.status = .faulted r → step s = .fault (.coreFaulted r))

/-- R262, R106 (decision D21): a fault writes no register, no byte and no pc: the state is the old one but for the
status. -/
def Obligations.FaultsArePrecise : Prop :=
  ∀ (s t : State) (r : FaultRecord), step s = .next t → t.status = .faulted r →
    t = { s with status := .faulted r }

/-- R260, R263, R264, R265 (decision D22): the record of a fault has the form of R264, the pc of the cycle, and the raw
word exactly when the fetch gave one, which is then the fetched word (log entry 11). -/
def Obligations.FaultRecordDescribesTheFault : Prop :=
  ∀ (s t : State) (r : FaultRecord), step s = .next t → t.status = .faulted r →
    recordOk r = true ∧ r.pc = s.pc ∧
    r.inst = (if alignedAddress s.pc ∧ allMapped s s.pc 4 then
      some (readByte s (s.pc + 3#32) ++ readByte s (s.pc + 2#32) ++ readByte s (s.pc + 1#32) ++ readByte s s.pc)
      else none)

/-- R30, R34, R262, R264: every step keeps the invariant `Invariant`: memory canonical and mapped, pc a multiple of 4, a fault
record of the right form at the pc it stopped at. -/
def Obligations.EveryStepKeepsTheInvariant : Prop :=
  ∀ s t : State, Invariant s → step s = .next t → Invariant t

/-- R30 (decision D3): whatever the state before, a step that goes on leaves the pc a multiple of 4, and was at one. -/
def Obligations.PcStaysAligned : Prop :=
  ∀ s t : State, step s = .next t → t.status = .running → alignedAddress s.pc ∧ alignedAddress t.pc

/-- R9, R280: no step changes ROUTES (log entry 6). -/
def Obligations.NoStepChangesTheRoutes : Prop :=
  ∀ s t : State, step s = .next t → t.routes = s.routes

/-- R277 (decision D22 for the record): the snapshot shows the pc, x0 to x31, and the record of a Faulted core. -/
def Obligations.SnapshotShowsPcRegistersAndRecord : Prop :=
  ∀ s : State, (snapshot s).pc = s.pc ∧
    (∀ i : RegIdx, (snapshot s).regs[i.toNat]'(by have := i.isLt; omega) = readReg s i) ∧
    (s.status = .running → (snapshot s).record = none) ∧
    (∀ r, s.status = .faulted r → (snapshot s).record = some r)

/-- R28, R29, R112: where the pc goes, for every instruction, from a Running core: nowhere when a fault is raised, else
to the target the instruction sets or to pc + 4. -/
def Obligations.PcAdvancesAsTheInstructionSays : Prop :=
  ∀ (i : Instr) (s t : State), s.status = .running → exec i s = .next t →
    (t.status = .running → t.pc = nextPc s i) ∧ (t.status ≠ .running → t.pc = s.pc)

/-- R24, R50, R106: the frame of every instruction: only the destination register may change, only the bytes of a store's
span may change, and x0 reads 0 before and after. That they change at every address which leads to them is the model's
reading of R41 (DEDUCED, log entry 7). -/
def Obligations.EveryInstructionKeepsItsFrame : Prop :=
  ∀ (i : Instr) (s t : State), exec i s = .next t →
    readReg t 0#5 = 0#32 ∧
    (∀ r : RegIdx, some r ≠ destination i → readReg t r = readReg s r) ∧
    (∀ a : Word, (∀ b n, storeSpan s i = some (b, n) → ∀ k < n, sharesByte s.routes (b + BitVec.ofNat 32 k) a = false) →
      readByte t a = readByte s a) ∧
    (registersKept s t ∨ memoryKept s t)

/-- R24: an instruction reads no register but its sources: changing another one changes nothing else that follows. -/
def Obligations.OnlySourceRegistersAreRead : Prop :=
  ∀ (i : Instr) (s t : State) (r : RegIdx) (v : Word), r ∉ sources i → exec i s = .next t →
    ∃ u, exec i (writeReg s r v) = .next u ∧ u.pc = t.pc ∧ u.mem = t.mem ∧ u.status = t.status ∧
      (∀ q : RegIdx, q ≠ r → readReg u q = readReg t q) ∧
      (destination i = some r → t.status = .running → readReg u r = readReg t r)

/-- R57, R294 (derived marks): the fetch of the very next instruction sees the word a store has just put there. That it sees
it too when the store went through other addresses that lead to the same four bytes, and the premise that the four
differ, rest on the model's reading of R41 (DEDUCED, log entry 7). -/
def Obligations.NextFetchSeesTheStore : Prop :=
  ∀ (s : State) (rs1 rs2 : RegIdx) (imm : BitVec 12), alignedAddress s.pc →
    (∀ k < 4, sharesByte s.routes (readReg s rs1 + sext32 imm + BitVec.ofNat 32 k) (s.pc + 4#32 + BitVec.ofNat 32 k) = true) →
    distinctBytes s (s.pc + 4#32) 4 →
    ∃ t, exec (.sw rs1 rs2 imm) s = .next t ∧ fetch t = .ok (readReg s rs2)

/-- R54 (derived mark), R48 (decision D4): a word stored is the word loaded from the same address, at any alignment. That it
is loaded too from another address that leads to the same four bytes, and the premise that the four differ, rest on the
model's reading of R41 (DEDUCED, log entry 7). -/
def Obligations.LoadReturnsTheStoredWord : Prop :=
  ∀ (s : State) (rs1 rs2 rd base : RegIdx) (imm disp : BitVec 12),
    (∀ k < 4, sharesByte s.routes (readReg s rs1 + sext32 imm + BitVec.ofNat 32 k)
      (readReg s base + sext32 disp + BitVec.ofNat 32 k) = true) →
    distinctBytes s (readReg s rs1 + sext32 imm) 4 →
    ∃ t u, exec (.sw rs1 rs2 imm) s = .next t ∧ exec (.lw rd base disp) t = .next u ∧
      readReg u rd = (if rd = 0#5 then 0#32 else readReg s rs2)

/-- R108 (decision D30): a JAL with offset 0 and rd = x0 at the pc is a fixed point of the step. -/
def Obligations.SelfJumpIsAFixedPoint : Prop :=
  ∀ s : State, s.status = .running → alignedAddress s.pc → allMapped s s.pc 4 →
    readByte s s.pc = 0x6F#8 → readByte s (s.pc + 1#32) = 0x00#8 → readByte s (s.pc + 2#32) = 0x00#8 →
    readByte s (s.pc + 3#32) = 0x00#8 → step s = .next s

/-! ### Register-register ALU -/

/-- R120, R121. -/
def Obligations.AddAndSubWrapModulo32Bits : Prop :=
  registerForm 0x00000033 0xFE00707F .add (fun a b v => v.toNat = (a.toNat + b.toNat) % 2 ^ 32) ∧
  registerForm 0x40000033 0xFE00707F .sub (fun a b v => (v.toNat + b.toNat) % 2 ^ 32 = a.toNat)

/-- R123, R124. -/
def Obligations.SetLessThanWritesOneOrZero : Prop :=
  registerForm 0x00002033 0xFE00707F .slt (fun a b v => v.toNat = if a.toInt < b.toInt then 1 else 0) ∧
  registerForm 0x00003033 0xFE00707F .sltu (fun a b v => v.toNat = if a.toNat < b.toNat then 1 else 0)

/-- R125, R128, R129: bit by bit. -/
def Obligations.BitwiseOperationsActOnEveryBit : Prop :=
  registerForm 0x00004033 0xFE00707F .xor (fun a b v => ∀ k, v.getLsbD k = (a.getLsbD k != b.getLsbD k)) ∧
  registerForm 0x00006033 0xFE00707F .or (fun a b v => ∀ k, v.getLsbD k = (a.getLsbD k || b.getLsbD k)) ∧
  registerForm 0x00007033 0xFE00707F .and (fun a b v => ∀ k, v.getLsbD k = (a.getLsbD k && b.getLsbD k))

/-- R126: zero-fill, the amount masked to the low 5 bits. -/
def Obligations.SrlShiftsRightWithZeros : Prop :=
  registerForm 0x00005033 0xFE00707F .srl (fun a b v => v.toNat = a.toNat / 2 ^ (b.toNat % 32))

/-- R122, R127: the amount masked to the low 5 bits is decision D15. -/
def Obligations.SllAndSraMaskTheAmount : Prop :=
  registerForm 0x00001033 0xFE00707F .sll (fun a b v => v.toNat = a.toNat * 2 ^ (b.toNat % 32) % 2 ^ 32) ∧
  registerForm 0x40005033 0xFE00707F .sra (fun a b v => v.toInt = a.toInt / 2 ^ (b.toNat % 32))

/-! ### Register-immediate ALU -/

/-- R140, R141, R143, R144, R145. -/
def Obligations.ImmediateOperationsUseTheSignExtendedImmediate : Prop :=
  immediateForm 0x00000013 0x0000707F .addi (fun a b v => v.toNat = (a.toNat + b.toNat) % 2 ^ 32) ∧
  immediateForm 0x00002013 0x0000707F .slti (fun a b v => v.toNat = if a.toInt < b.toInt then 1 else 0) ∧
  immediateForm 0x00004013 0x0000707F .xori (fun a b v => ∀ k, v.getLsbD k = (a.getLsbD k != b.getLsbD k)) ∧
  immediateForm 0x00006013 0x0000707F .ori (fun a b v => ∀ k, v.getLsbD k = (a.getLsbD k || b.getLsbD k)) ∧
  immediateForm 0x00007013 0x0000707F .andi (fun a b v => ∀ k, v.getLsbD k = (a.getLsbD k && b.getLsbD k))

/-- R142 (derived mark): sign-extended first, then compared unsigned. -/
def Obligations.SltiuComparesUnsignedAfterSignExtension : Prop :=
  immediateForm 0x00003013 0x0000707F .sltiu (fun a b v => v.toNat = if a.toNat < b.toNat then 1 else 0)

/-- R146, R147, R148, R73 (decisions D15, D16 for the funct7 check). -/
def Obligations.ImmediateShiftsUseTheirFiveBitAmount : Prop :=
  shiftForm 0x00001013 0xFE00707F .slli (fun a n v => v.toNat = a.toNat * 2 ^ n % 2 ^ 32) ∧
  shiftForm 0x00005013 0xFE00707F .srli (fun a n v => v.toNat = a.toNat / 2 ^ n) ∧
  shiftForm 0x40005013 0xFE00707F .srai (fun a n v => v.toInt = a.toInt / 2 ^ n)

/-! ### Multiply and divide -/

/-- R160, R161, R162: the low word of the product, and the high words of the exact signed and unsigned products. -/
def Obligations.MultiplyGivesTheWordsOfTheExactProduct : Prop :=
  registerForm 0x02000033 0xFE00707F .mul (fun a b v => v.toNat = a.toNat * b.toNat % 2 ^ 32) ∧
  registerForm 0x02001033 0xFE00707F .mulh (fun a b v => v.toInt = a.toInt * b.toInt / 2 ^ 32) ∧
  registerForm 0x02003033 0xFE00707F .mulhu (fun a b v => v.toNat = a.toNat * b.toNat / 2 ^ 32)

/-- R164, R166: the values by zero, on overflow and the rounding are decisions D11, D12, D13. -/
def Obligations.SignedDivisionAndRemainder : Prop :=
  registerForm 0x02004033 0xFE00707F .div (fun a b v =>
    if b.toNat = 0 then v.toNat = 2 ^ 32 - 1
    else if a.toInt = -2 ^ 31 ∧ b.toInt = -1 then v.toInt = -2 ^ 31
    else v.toInt = a.toInt.tdiv b.toInt) ∧
  registerForm 0x02006033 0xFE00707F .rem (fun a b v =>
    if b.toNat = 0 then v = a
    else if a.toInt = -2 ^ 31 ∧ b.toInt = -1 then v.toNat = 0
    else v.toInt = a.toInt.tmod b.toInt)

/-- R165, R167: the values by zero are decision D11. -/
def Obligations.UnsignedDivisionAndRemainder : Prop :=
  registerForm 0x02005033 0xFE00707F .divu (fun a b v =>
    if b.toNat = 0 then v.toNat = 2 ^ 32 - 1 else v.toNat = a.toNat / b.toNat) ∧
  registerForm 0x02007033 0xFE00707F .remu (fun a b v =>
    if b.toNat = 0 then v = a else v.toNat = a.toNat % b.toNat)

/-- R168 (derived mark): the division laws, for the values DIV, REM, DIVU and REMU write. -/
def Obligations.QuotientAndRemainderMakeUpTheDividend : Prop :=
  ∀ a b : Word,
    (b.toNat ≠ 0 → ¬ (a.toNat = 0x80000000 ∧ b.toNat = 0xFFFFFFFF) →
      a.toInt = b.toInt * (divOp a b).toInt + (remOp a b).toInt ∧ (remOp a b).toInt.natAbs < b.toInt.natAbs) ∧
    (b.toNat ≠ 0 → a.toNat = b.toNat * (divuOp a b).toNat + (remuOp a b).toNat ∧
      (remuOp a b).toNat < b.toNat) ∧
    a = b * divOp a b + remOp a b ∧ a = b * divuOp a b + remuOp a b

/-- R163 (decision D14, conflict C5): MULHSU raises UnimplementedInstruction for every operand, and that is all. -/
def Obligations.MulhsuRaisesUnimplementedInstruction : Prop :=
  selects 0x02002033 0xFE00707F (fun w => .mulhsu (rdOf w) (rs1Of w) (rs2Of w)) ∧
  ∀ (rd rs1 rs2 : RegIdx) (s : State), ∃ t, exec (.mulhsu rd rs1 rs2) s = .next t ∧
    faultsWith s t ⟨.unimplementedInstruction, 2, s.pc, some (encode (.mulhsu rd rs1 rs2)), none, none⟩

/-! ### Upper immediates and jumps -/

/-- R180: the 20-bit field times 2^12, whatever `x[rd]` held. -/
def Obligations.LuiWritesTheUpperImmediate : Prop :=
  selects 0x00000037 0x0000007F (fun w => .lui (rdOf w) (fieldU w)) ∧
  ∀ (rd : RegIdx) (imm : BitVec 20) (s : State),
    ∃ t v, exec (.lui rd imm) s = .next t ∧ writesRegister s t rd v ∧ v.toNat = imm.toNat * 2 ^ 12

/-- R181 (its opcode is general knowledge, spec/93_implementation_defined.md): the field times 2^12 plus the instruction's
own address. -/
def Obligations.AuipcAddsToItsOwnAddress : Prop :=
  selects 0x00000017 0x0000007F (fun w => .auipc (rdOf w) (fieldU w)) ∧
  ∀ (rd : RegIdx) (imm : BitVec 20) (s : State),
    ∃ t v, exec (.auipc rd imm) s = .next t ∧ writesRegister s t rd v ∧
      v.toNat = (s.pc.toNat + imm.toNat * 2 ^ 12) % 2 ^ 32

/-- R190, R111, R112 (decisions D2, D3): JAL, to a 4-aligned target and to another. -/
def Obligations.JalLinksAndJumpsRelativeToItself : Prop :=
  selects 0x0000006F 0x0000007F (fun w => .jal (rdOf w) (fieldJ w)) ∧
  ∀ (rd : RegIdx) (offset : BitVec 21) (s : State),
    (alignedAddress (s.pc + sext32 offset) →
      ∃ t, exec (.jal rd offset) s = .next t ∧ linksAndGoes s t rd (s.pc + sext32 offset)) ∧
    (¬ alignedAddress (s.pc + sext32 offset) →
      ∃ t, exec (.jal rd offset) s = .next t ∧
        faultsWith s t ⟨.instructionAddressMisaligned, 0, s.pc, some (encode (.jal rd offset)),
          some (s.pc + sext32 offset), none⟩)

/-- R191, R111 (decisions D3, D19, D20, conflict C3): JALR; the target is twice half the sum, read before the link is
written. -/
def Obligations.JalrLinksAndJumpsToTheEvenSum : Prop :=
  selects 0x00000067 0x0000707F (fun w => .jalr (rdOf w) (rs1Of w) (fieldI w)) ∧
  ∀ (rd rs1 : RegIdx) (imm : BitVec 12) (s : State) (target : Word),
    target.toNat = (readReg s rs1 + sext32 imm).toNat / 2 * 2 →
    (alignedAddress target →
      ∃ t, exec (.jalr rd rs1 imm) s = .next t ∧ linksAndGoes s t rd target) ∧
    (¬ alignedAddress target →
      ∃ t, exec (.jalr rd rs1 imm) s = .next t ∧
        faultsWith s t ⟨.instructionAddressMisaligned, 0, s.pc, some (encode (.jalr rd rs1 imm)), some target, none⟩)

/-! ### Branches (decisions D2, D3) -/

/-- R200, R201. -/
def Obligations.BranchesOnEquality : Prop :=
  branchForm 0x00000063 0x0000707F .beq (fun a b => a = b) ∧
  branchForm 0x00001063 0x0000707F .bne (fun a b => a ≠ b)

/-- R202, R203. -/
def Obligations.BranchesOnSignedOrder : Prop :=
  branchForm 0x00004063 0x0000707F .blt (fun a b => a.toInt < b.toInt) ∧
  branchForm 0x00005063 0x0000707F .bge (fun a b => b.toInt ≤ a.toInt)

/-- R204, R205. -/
def Obligations.BranchesOnUnsignedOrder : Prop :=
  branchForm 0x00006063 0x0000707F .bltu (fun a b => a.toNat < b.toNat) ∧
  branchForm 0x00007063 0x0000707F .bgeu (fun a b => b.toNat ≤ a.toNat)

/-! ### Loads and stores (decisions D1, D4, D5, D6, D25) -/

/-- R220, R223. -/
def Obligations.ByteLoadsExtendTheByte : Prop :=
  loadForm 0x00000003 0x0000707F .lb 1 (fun b v => v.toInt = (b 0).toInt) ∧
  loadForm 0x00004003 0x0000707F .lbu 1 (fun b v => v.toNat = (b 0).toNat)

/-- R221, R224. -/
def Obligations.HalfwordLoadsExtendTwoBytes : Prop :=
  loadForm 0x00001003 0x0000707F .lh 2 (fun b v => v.toInt = (b 0).toNat + 2 ^ 8 * (b 1).toInt) ∧
  loadForm 0x00005003 0x0000707F .lhu 2 (fun b v => v.toNat = (b 0).toNat + 2 ^ 8 * (b 1).toNat)

/-- R222. -/
def Obligations.WordLoadReadsFourBytes : Prop :=
  loadForm 0x00002003 0x0000707F .lw 4 (fun b v =>
    v.toNat = (b 0).toNat + 2 ^ 8 * (b 1).toNat + 2 ^ 16 * (b 2).toNat + 2 ^ 24 * (b 3).toNat)

/-- R235, R236, R237: the low 1, 2 or 4 bytes of `x[rs2]`, least significant first, at any address, and no other byte. That an
address which leads to the byte of one of those stored reads the last one put there is the model's reading of R41
(DEDUCED, log entry 7). -/
def Obligations.StoresWriteTheLowBytesAndNoOther : Prop :=
  storeForm 0x00000023 0x0000707F .sb 1 ∧ storeForm 0x00001023 0x0000707F .sh 2 ∧
  storeForm 0x00002023 0x0000707F .sw 4

/-- R45, R238, R261 (decisions D6, D21). -/
def Obligations.StoresToAnUnmappedByteWriteNothing : Prop :=
  storeFaultForm .sb 1 ∧ storeFaultForm .sh 2 ∧ storeFaultForm .sw 4

/-! ### Fence and the SYSTEM group -/

/-- R250, R55, R79 (decision D18): FENCE changes only the pc, whatever its other bits hold. -/
def Obligations.FenceOnlyAdvancesThePc : Prop :=
  selects 0x0000000F 0x0000707F
    (fun w => .fence (w.extractLsb' 28 4) (w.extractLsb' 24 4) (w.extractLsb' 20 4) (rs1Of w) (rdOf w)) ∧
  ∀ (fm pred succ : BitVec 4) (rs1 rd : RegIdx) (s : State),
    ∃ t, exec (.fence fm pred succ rs1 rd) s = .next t ∧ goesTo s t (s.pc + 4#32)

/-- R251: every word of the SYSTEM group raises UnimplementedInstruction, and that is all. -/
def Obligations.SystemRaisesUnimplementedInstruction : Prop :=
  selects 0x00000073 0x0000007F (fun w => .system (fieldI w) (rs1Of w) (funct3Of w) (rdOf w)) ∧
  ∀ (f : BitVec 12) (rs1 : RegIdx) (g : BitVec 3) (rd : RegIdx) (s : State),
    ∃ t, exec (.system f rs1 g rd) s = .next t ∧
      faultsWith s t ⟨.unimplementedInstruction, 2, s.pc, some (encode (.system f rs1 g rd)), none, none⟩
end

