-- ==== Sys2Proof/Laws/State.lean ====
section
/-! SUPPORT. The fields of a state after each update, one lemma per field per update. -/

namespace Sys2Proof.Machine

@[simp] theorem setPc_regs (s : State) (v : Word) : (setPc s v).regs = s.regs := rfl
@[simp] theorem setPc_pc (s : State) (v : Word) : (setPc s v).pc = v := rfl
@[simp] theorem setPc_mem (s : State) (v : Word) : (setPc s v).mem = s.mem := rfl
@[simp] theorem setPc_status (s : State) (v : Word) : (setPc s v).status = s.status := rfl
@[simp] theorem setPc_routes (s : State) (v : Word) : (setPc s v).routes = s.routes := rfl

@[simp] theorem setMem_regs (s : State) (m : Memory) : (setMem s m).regs = s.regs := rfl
@[simp] theorem setMem_pc (s : State) (m : Memory) : (setMem s m).pc = s.pc := rfl
@[simp] theorem setMem_mem (s : State) (m : Memory) : (setMem s m).mem = m := rfl
@[simp] theorem setMem_status (s : State) (m : Memory) : (setMem s m).status = s.status := rfl
@[simp] theorem setMem_routes (s : State) (m : Memory) : (setMem s m).routes = s.routes := rfl

@[simp] theorem setStatus_regs (s : State) (st : Status) : (setStatus s st).regs = s.regs := rfl
@[simp] theorem setStatus_pc (s : State) (st : Status) : (setStatus s st).pc = s.pc := rfl
@[simp] theorem setStatus_mem (s : State) (st : Status) : (setStatus s st).mem = s.mem := rfl
@[simp] theorem setStatus_status (s : State) (st : Status) : (setStatus s st).status = st := rfl
@[simp] theorem setStatus_routes (s : State) (st : Status) : (setStatus s st).routes = s.routes := rfl

@[simp] theorem raise_regs (s : State) (r : FaultRecord) : (raise s r).regs = s.regs := rfl
@[simp] theorem raise_pc (s : State) (r : FaultRecord) : (raise s r).pc = s.pc := rfl
@[simp] theorem raise_mem (s : State) (r : FaultRecord) : (raise s r).mem = s.mem := rfl
@[simp] theorem raise_status (s : State) (r : FaultRecord) : (raise s r).status = .faulted r := rfl
@[simp] theorem raise_routes (s : State) (r : FaultRecord) : (raise s r).routes = s.routes := rfl

@[simp] theorem writeReg_pc (s : State) (i : RegIdx) (v : Word) : (writeReg s i v).pc = s.pc := by
  unfold writeReg; split <;> rfl
@[simp] theorem writeReg_mem (s : State) (i : RegIdx) (v : Word) : (writeReg s i v).mem = s.mem := by
  unfold writeReg; split <;> rfl
@[simp] theorem writeReg_status (s : State) (i : RegIdx) (v : Word) : (writeReg s i v).status = s.status := by
  unfold writeReg; split <;> rfl
@[simp] theorem writeReg_routes (s : State) (i : RegIdx) (v : Word) : (writeReg s i v).routes = s.routes := by
  unfold writeReg; split <;> rfl

/-- All a byte write can do: set the byte at the address's location, or nothing where there is none. -/
theorem writeByte_cases (s : State) (a : Word) (b : Byte) :
    (∃ k, locationOf s.routes a = some k ∧ writeByte s a b = setMem s (memPut s.mem k b)) ∨
    (locationOf s.routes a = none ∧ writeByte s a b = s) := by
  unfold writeByte
  cases locationOf s.routes a with
  | some k => exact .inl ⟨k, rfl, rfl⟩
  | none => exact .inr ⟨rfl, rfl⟩

@[simp] theorem writeByte_regs (s : State) (a : Word) (b : Byte) : (writeByte s a b).regs = s.regs := by
  unfold writeByte; split <;> rfl
@[simp] theorem writeByte_pc (s : State) (a : Word) (b : Byte) : (writeByte s a b).pc = s.pc := by
  unfold writeByte; split <;> rfl
@[simp] theorem writeByte_status (s : State) (a : Word) (b : Byte) : (writeByte s a b).status = s.status := by
  unfold writeByte; split <;> rfl
@[simp] theorem writeByte_routes (s : State) (a : Word) (b : Byte) : (writeByte s a b).routes = s.routes := by
  unfold writeByte; split <;> rfl

@[simp] theorem writeBytes_regs (s : State) (a : Word) (bs : List Byte) : (writeBytes s a bs).regs = s.regs := by
  induction bs generalizing s a with
  | nil => rfl
  | cons b bs ih => simp [writeBytes, ih]
@[simp] theorem writeBytes_pc (s : State) (a : Word) (bs : List Byte) : (writeBytes s a bs).pc = s.pc := by
  induction bs generalizing s a with
  | nil => rfl
  | cons b bs ih => simp [writeBytes, ih]
@[simp] theorem writeBytes_status (s : State) (a : Word) (bs : List Byte) : (writeBytes s a bs).status = s.status := by
  induction bs generalizing s a with
  | nil => rfl
  | cons b bs ih => simp [writeBytes, ih]
@[simp] theorem writeBytes_routes (s : State) (a : Word) (bs : List Byte) : (writeBytes s a bs).routes = s.routes := by
  induction bs generalizing s a with
  | nil => rfl
  | cons b bs ih => simp [writeBytes, ih]

end Sys2Proof.Machine
end

