-- ==== Sys2Proof/Laws/Registers.lean ====
section
/-! SUPPORT. Reading a register after each update: R21 and R22 as rewriting. -/

namespace Sys2Proof.Machine

@[simp] theorem readReg_zero (s : State) : readReg s 0#5 = 0#32 := by simp [readReg]

/-- `readReg` looks at the register file only. -/
theorem readReg_congr {s t : State} (h : t.regs = s.regs) (i : RegIdx) : readReg t i = readReg s i := by
  simp [readReg, h]

@[simp] theorem readReg_setPc (s : State) (v : Word) (i : RegIdx) : readReg (setPc s v) i = readReg s i := rfl
@[simp] theorem readReg_setMem (s : State) (m : Memory) (i : RegIdx) : readReg (setMem s m) i = readReg s i := rfl
@[simp] theorem readReg_setStatus (s : State) (st : Status) (i : RegIdx) :
    readReg (setStatus s st) i = readReg s i := rfl
@[simp] theorem readReg_raise (s : State) (r : FaultRecord) (i : RegIdx) : readReg (raise s r) i = readReg s i := rfl
@[simp] theorem readReg_writeByte (s : State) (a : Word) (b : Byte) (i : RegIdx) :
    readReg (writeByte s a b) i = readReg s i := readReg_congr (writeByte_regs s a b) i
@[simp] theorem readReg_writeBytes (s : State) (a : Word) (bs : List Byte) (i : RegIdx) :
    readReg (writeBytes s a bs) i = readReg s i := readReg_congr (writeBytes_regs s a bs) i

@[simp] theorem writeReg_zero (s : State) (v : Word) : writeReg s 0#5 v = s := by simp [writeReg]

theorem regIdx_toNat_pos {i : RegIdx} (h : i ≠ 0#5) : 0 < i.toNat := by
  rcases Nat.eq_zero_or_pos i.toNat with h0 | h0
  · exact absurd (BitVec.eq_of_toNat_eq (by simpa using h0)) h
  · exact h0

/-- What any register reads as after a register write (R21, R22). -/
theorem readReg_writeReg (s : State) (i j : RegIdx) (v : Word) :
    readReg (writeReg s i v) j = if j = 0#5 then 0#32 else if j = i then v else readReg s j := by
  by_cases hj : j = 0#5
  · simp [hj]
  · by_cases hi : i = 0#5
    · subst hi
      simp [hj, writeReg]
    · have pi := regIdx_toNat_pos hi
      have pj := regIdx_toNat_pos hj
      by_cases hij : j = i
      · subst hij
        simp [readReg, writeReg, hj]
      · have hne : i.toNat - 1 ≠ j.toNat - 1 := fun h =>
          hij (BitVec.eq_of_toNat_eq (by omega))
        simp [readReg, writeReg, hi, hj, hij, Vector.getElem_set_ne _ _ hne]

end Sys2Proof.Machine
end

