-- ==== Sys2Proof/Laws/Memory.lean ====
section
/-! SUPPORT. Memory: which addresses share a byte, the canonical form is kept, a byte read after a byte write, and the
wider accesses. -/

namespace Sys2Proof.Machine

/-! ### One location -/

theorem memByte_memErase_self (m : Memory) (a : Nat) : memByte (memErase m a) a = unlistedByte := by
  induction m with
  | nil => rfl
  | cons c m ih => simp only [memErase]; split <;> simp_all [memByte]

theorem memByte_memErase_ne (m : Memory) {a a' : Nat} (h : a' ≠ a) :
    memByte (memErase m a) a' = memByte m a' := by
  induction m with
  | nil => rfl
  | cons c m ih =>
    simp only [memErase, memByte]
    split
    · rename_i hk; rw [ih, if_neg (by omega)]
    · simp only [memByte, ih]

theorem memByte_memInsert_ne (m : Memory) {a a' : Nat} (b : Byte) (h : a' ≠ a) :
    memByte (memInsert m a b) a' = memByte m a' := by
  induction m with
  | nil => simp only [memInsert, memByte]; rw [if_neg (by omega)]
  | cons c m ih =>
    simp only [memInsert]
    split
    · simp only [memByte]; rw [if_neg (by omega)]
    · simp only [memByte, ih]

theorem memByte_memInsert_memErase_self (m : Memory) (a : Nat) (b : Byte) :
    memByte (memInsert (memErase m a) a b) a = b := by
  induction m with
  | nil => simp [memErase, memInsert, memByte]
  | cons c m ih =>
    simp only [memErase]
    split
    · exact ih
    · rename_i hk
      simp only [memInsert]
      split
      · simp [memByte]
      · simp only [memByte]; rw [if_neg hk, ih]

/-- Reading back the byte just put, in any memory. -/
@[simp] theorem memByte_memPut_self (m : Memory) (a : Nat) (b : Byte) : memByte (memPut m a b) a = b := by
  unfold memPut
  split
  · rename_i hb; rw [memByte_memErase_self, hb]
  · exact memByte_memInsert_memErase_self m a b

/-- Putting a byte leaves every other location alone, in any memory. -/
theorem memByte_memPut_ne (m : Memory) {a a' : Nat} (b : Byte) (h : a' ≠ a) :
    memByte (memPut m a b) a' = memByte m a' := by
  unfold memPut
  split
  · exact memByte_memErase_ne m h
  · rw [memByte_memInsert_ne _ b h, memByte_memErase_ne m h]

/-! ### The canonical form -/

theorem risesAbove_weaken {j k : Nat} {m : Memory} (hjk : j ≤ k) (h : risesAbove k m = true) :
    risesAbove j m = true := by
  cases m with
  | nil => rfl
  | cons c m => simp only [risesAbove, Bool.and_eq_true, decide_eq_true_eq] at h ⊢; exact ⟨by omega, h.2⟩

theorem risesAbove_rises {k : Nat} {m : Memory} (h : risesAbove k m = true) : rises m = true := by
  cases m with
  | nil => rfl
  | cons c m => simp only [risesAbove, Bool.and_eq_true] at h; exact h.2

theorem risesAbove_memErase {k : Nat} {m : Memory} (a : Nat) (h : risesAbove k m = true) :
    risesAbove k (memErase m a) = true := by
  induction m generalizing k with
  | nil => rfl
  | cons c m ih =>
    simp only [risesAbove, Bool.and_eq_true, decide_eq_true_eq] at h
    simp only [memErase]
    split
    · exact risesAbove_weaken (by omega) (ih h.2)
    · simp [risesAbove, h.1, ih h.2]

theorem risesAbove_memInsert {k : Nat} {m : Memory} {a : Nat} (b : Byte) (ha : k < a)
    (hm : ∀ c ∈ m, c.1 ≠ a) (h : risesAbove k m = true) : risesAbove k (memInsert m a b) = true := by
  induction m generalizing k with
  | nil => simp [memInsert, risesAbove, ha]
  | cons c m ih =>
    simp only [risesAbove, Bool.and_eq_true, decide_eq_true_eq] at h
    have hc := hm c List.mem_cons_self
    simp only [memInsert]
    split
    · rename_i hlt; simp [risesAbove, ha, hlt, h.2]
    · simp only [risesAbove, Bool.and_eq_true, decide_eq_true_eq]
      exact ⟨h.1, ih (by omega) (fun d hd => hm d (List.mem_cons_of_mem _ hd)) h.2⟩

theorem mem_memErase {m : Memory} {a : Nat} {c : Host.Cell} (h : c ∈ memErase m a) : c ∈ m ∧ c.1 ≠ a := by
  induction m with
  | nil => simp [memErase] at h
  | cons d m ih =>
    simp only [memErase] at h
    split at h
    · exact ⟨List.mem_cons_of_mem _ (ih h).1, (ih h).2⟩
    · rename_i hk
      rcases List.mem_cons.1 h with rfl | h
      · exact ⟨List.mem_cons_self, hk⟩
      · exact ⟨List.mem_cons_of_mem _ (ih h).1, (ih h).2⟩

theorem mem_memInsert {m : Memory} {a : Nat} {b : Byte} {c : Host.Cell} (h : c ∈ memInsert m a b) :
    c = (a, b) ∨ c ∈ m := by
  induction m with
  | nil => exact .inl (by simpa [memInsert] using h)
  | cons d m ih =>
    simp only [memInsert] at h
    split at h
    · rcases List.mem_cons.1 h with h | h
      · exact .inl h
      · exact .inr h
    · rcases List.mem_cons.1 h with rfl | h
      · exact .inr List.mem_cons_self
      · exact (ih h).imp_right (List.mem_cons_of_mem _)

/-- Every entry after a byte is put is the new one or an old one. -/
theorem mem_memPut {m : Memory} {a : Nat} {b : Byte} {c : Host.Cell} (h : c ∈ memPut m a b) :
    (c = (a, b) ∧ b ≠ unlistedByte) ∨ c ∈ m := by
  unfold memPut at h
  split at h
  · exact .inr (mem_memErase h).1
  · rename_i hb
    rcases mem_memInsert h with h | h
    · exact .inl ⟨h, hb⟩
    · exact .inr (mem_memErase h).1

theorem rises_cons {c : Host.Cell} {m : Memory} : rises (c :: m) = risesAbove c.1 m := rfl

theorem rises_memPut {m : Memory} (a : Nat) (b : Byte) (h : rises m = true) : rises (memPut m a b) = true := by
  have he : ∀ {m : Memory}, rises m = true → rises (memErase m a) = true := by
    intro m h
    cases m with
    | nil => rfl
    | cons c m =>
      rw [rises_cons] at h
      simp only [memErase]
      split
      · exact risesAbove_rises (risesAbove_memErase a h)
      · rw [rises_cons]; exact risesAbove_memErase a h
  have hi : ∀ {m : Memory}, rises m = true → (∀ c ∈ m, c.1 ≠ a) → rises (memInsert m a b) = true := by
    intro m h hm
    cases m with
    | nil => rfl
    | cons c m =>
      have hc := hm c List.mem_cons_self
      rw [rises_cons] at h
      simp only [memInsert]
      split
      · rename_i hlt; rw [rises_cons]; simp [risesAbove, hlt, h]
      · rw [rises_cons]
        exact risesAbove_memInsert b (by omega) (fun d hd => hm d (List.mem_cons_of_mem _ hd)) h
  unfold memPut
  split
  · exact he h
  · exact hi (he h) (fun c hc => (mem_memErase hc).2)

/-- Putting a byte keeps the canonical form. -/
theorem memPut_wf {m : Memory} (a : Nat) (b : Byte) (h : m.wf = true) :
    (memPut m a b).wf = true := by
  simp only [Memory.wf, Bool.and_eq_true, List.all_eq_true, decide_eq_true_eq] at h ⊢
  refine ⟨rises_memPut a b h.1, fun c hc => ?_⟩
  rcases mem_memPut hc with ⟨rfl, hb⟩ | hc
  · exact hb
  · exact h.2 c hc

/-! ### Addresses that share a byte (R41) -/

/-- An address is routed to its offset in a range of the list. -/
theorem routeOf_mem {routes : List Route} {a : Word} {store : Nat} {offset : Word}
    (h : routeOf routes a = some (store, offset)) : ∃ r ∈ routes, r.store = store ∧ a - r.first = offset := by
  induction routes with
  | nil => cases h
  | cons r routes ih =>
    simp only [routeOf] at h
    split at h
    · cases h; exact ⟨r, by simp, rfl, rfl⟩
    · obtain ⟨q, hq, e⟩ := ih h
      exact ⟨q, by simp [hq], e⟩

theorem locationOf_isSome (routes : List Route) (a : Word) : (locationOf routes a).isSome = isMapped routes a := by
  unfold locationOf isMapped
  cases routeOf routes a <;> rfl

theorem locationOf_eq_none {routes : List Route} {a : Word} : locationOf routes a = none ↔ isMapped routes a = false := by
  rw [← locationOf_isSome]; simp

theorem sharesByte_iff {routes : List Route} {a b : Word} :
    sharesByte routes a b = true ↔ isMapped routes a = true ∧ routeOf routes a = routeOf routes b := by
  simp [sharesByte]

/-- Sharing a byte is having one location: the locations of two stores, and of two offsets, differ. -/
theorem sharesByte_iff_locationOf {routes : List Route} {a b : Word} :
    sharesByte routes a b = true ↔ isMapped routes a = true ∧ locationOf routes a = locationOf routes b := by
  rw [sharesByte_iff]
  refine and_congr_right fun _ => ⟨fun h => by simp [locationOf, h], fun h => ?_⟩
  unfold locationOf at h
  cases ha : routeOf routes a with
  | none => cases hb : routeOf routes b <;> simp_all
  | some p =>
    cases hb : routeOf routes b with
    | none => simp_all
    | some q =>
      simp only [ha, hb, Option.some.injEq] at h
      have hp := p.2.isLt
      have hq := q.2.isLt
      exact congrArg some (Prod.ext (by omega) (BitVec.eq_of_toNat_eq (by omega)))

@[simp] theorem sharesByte_self (routes : List Route) (a : Word) : sharesByte routes a a = isMapped routes a := by
  simp [sharesByte]

theorem sharesByte_symm {routes : List Route} {a b : Word} (h : sharesByte routes a b = true) :
    sharesByte routes b a = true := by
  rw [sharesByte_iff] at *
  exact ⟨by simpa [isMapped, h.2] using h.1, h.2.symm⟩

theorem sharesByte_trans {routes : List Route} {a b c : Word} (h : sharesByte routes a b = true)
    (h' : sharesByte routes b c = true) : sharesByte routes a c = true := by
  rw [sharesByte_iff] at *
  exact ⟨h.1, h.2.trans h'.2⟩

/-- Addresses that share a byte are both mapped. -/
theorem sharesByte_mapped {routes : List Route} {a b : Word} (h : sharesByte routes a b = true) :
    isMapped routes a = true ∧ isMapped routes b = true :=
  ⟨(sharesByte_iff.1 h).1, (sharesByte_iff.1 (sharesByte_symm h)).1⟩

/-- Where each range has a store of its own, an address shares its byte with no other. -/
theorem sharesByte_eq {routes : List Route} (hs : (routes.map Route.store).Nodup) {a b : Word}
    (h : sharesByte routes a b = true) : a = b := by
  obtain ⟨hm, hr⟩ := sharesByte_iff.1 h
  obtain ⟨⟨store, offset⟩, ha⟩ := Option.isSome_iff_exists.1 hm
  obtain ⟨r, hr1, hr2, hr3⟩ := routeOf_mem ha
  obtain ⟨q, hq1, hq2, hq3⟩ := routeOf_mem (hr ▸ ha)
  have e : r = q := List.inj_on_of_nodup_map hs hr1 hq1 (hr2.trans hq2.symm)
  subst e
  rw [← hq3] at hr3
  simpa using congrArg (· + r.first) hr3

/-! ### Bytes of a state -/

/-- `readByte` looks at the memory and the routes only. -/
theorem readByte_congr {s t : State} (hm : t.mem = s.mem) (hr : t.routes = s.routes) (a : Word) :
    readByte t a = readByte s a := by
  simp [readByte, hm, hr]

@[simp] theorem readByte_setPc (s : State) (v a : Word) : readByte (setPc s v) a = readByte s a := rfl
@[simp] theorem readByte_setStatus (s : State) (st : Status) (a : Word) :
    readByte (setStatus s st) a = readByte s a := rfl
@[simp] theorem readByte_raise (s : State) (r : FaultRecord) (a : Word) : readByte (raise s r) a = readByte s a := rfl
@[simp] theorem readByte_writeReg (s : State) (i : RegIdx) (v a : Word) :
    readByte (writeReg s i v) a = readByte s a := readByte_congr (writeReg_mem s i v) (writeReg_routes s i v) a

/-- Addresses that share a byte read the same. -/
theorem readByte_of_shares {s : State} {a c : Word} (h : sharesByte s.routes a c = true) :
    readByte s c = readByte s a := by
  simp [readByte, (sharesByte_iff_locationOf.1 h).2]

/-- What any address reads as after a byte write (R40, R41). -/
theorem readByte_writeByte (s : State) (a c : Word) (b : Byte) :
    readByte (writeByte s a b) c = if sharesByte s.routes a c = true then b else readByte s c := by
  rcases writeByte_cases s a b with ⟨k, hk, e⟩ | ⟨hn, e⟩
  · have hm : isMapped s.routes a = true := by rw [← locationOf_isSome, hk]; rfl
    rw [e]
    split
    · rename_i h
      have hc := (sharesByte_iff_locationOf.1 h).2
      simp [readByte, ← hc, hk]
    · rename_i h
      unfold readByte
      simp only [setMem_routes, setMem_mem]
      cases hc : locationOf s.routes c with
      | none => rfl
      | some j =>
        refine memByte_memPut_ne _ _ fun hj => h (sharesByte_iff_locationOf.2 ⟨hm, ?_⟩)
        rw [hk, hc, hj]
  · rw [e, if_neg]
    intro h
    exact absurd (sharesByte_mapped h).1 (by simp [locationOf_eq_none.1 hn])

theorem readByte_writeByte_shared {s : State} {a c : Word} (b : Byte) (h : sharesByte s.routes a c = true) :
    readByte (writeByte s a b) c = b := by
  rw [readByte_writeByte, if_pos h]

theorem readByte_writeByte_other {s : State} {a c : Word} (b : Byte) (h : sharesByte s.routes a c = false) :
    readByte (writeByte s a b) c = readByte s c := by
  rw [readByte_writeByte, if_neg (by simp [h])]

theorem writeByte_wf {s : State} (a : Word) (b : Byte) (h : s.mem.wf = true) : (writeByte s a b).mem.wf = true := by
  rcases writeByte_cases s a b with ⟨k, _, e⟩ | ⟨_, e⟩
  · rw [e]; exact memPut_wf k b h
  · rw [e]; exact h

theorem writeBytes_wf {s : State} (a : Word) (bs : List Byte) (h : s.mem.wf = true) :
    (writeBytes s a bs).mem.wf = true := by
  induction bs generalizing s a with
  | nil => exact h
  | cons b bs ih => exact ih _ (writeByte_wf a b h)

/-! ### Consecutive addresses -/

theorem addr_succ (a : Word) (k : Nat) : a + 1#32 + BitVec.ofNat 32 k = a + BitVec.ofNat 32 (k + 1) := by
  rw [BitVec.add_assoc]
  congr 1
  apply BitVec.eq_of_toNat_eq
  simp only [BitVec.toNat_add, BitVec.toNat_ofNat]
  omega

@[simp] theorem addr_zero (a : Word) : a + BitVec.ofNat 32 0 = a := by simp

theorem addr_inj {a : Word} {j k : Nat} (hj : j < 2 ^ 32) (hk : k < 2 ^ 32)
    (h : a + BitVec.ofNat 32 j = a + BitVec.ofNat 32 k) : j = k := by
  have h := congrArg BitVec.toNat h
  simp only [BitVec.toNat_add, BitVec.toNat_ofNat] at h
  omega

theorem readBytes_length (s : State) (a : Word) (n : Nat) : (readBytes s a n).length = n := by
  induction n generalizing a with
  | zero => rfl
  | succ n ih => simp [readBytes, ih]

theorem readBytes_getElem (s : State) (a : Word) (n k : Nat) (h : k < (readBytes s a n).length) :
    (readBytes s a n)[k] = readByte s (a + BitVec.ofNat 32 k) := by
  induction n generalizing a k with
  | zero => simp [readBytes] at h
  | succ n ih =>
    cases k with
    | zero => simp [readBytes]
    | succ k => simp only [readBytes, List.getElem_cons_succ]; rw [ih, addr_succ]

/-- `readBytes` looks at the bytes of memory only. -/
theorem readBytes_congr {s t : State} {a : Word} {n : Nat}
    (h : ∀ k < n, readByte t (a + BitVec.ofNat 32 k) = readByte s (a + BitVec.ofNat 32 k)) :
    readBytes t a n = readBytes s a n := by
  apply List.ext_getElem (by simp [readBytes_length])
  intro k h1 h2
  rw [readBytes_getElem, readBytes_getElem]
  exact h k (by simpa [readBytes_length] using h1)

/-- Bytes written leave every address alone that shares none of theirs. -/
theorem readByte_writeBytes_other (s : State) (a c : Word) (bs : List Byte)
    (h : ∀ k < bs.length, sharesByte s.routes (a + BitVec.ofNat 32 k) c = false) :
    readByte (writeBytes s a bs) c = readByte s c := by
  induction bs generalizing s a with
  | nil => rfl
  | cons b bs ih =>
    simp only [writeBytes]
    rw [ih]
    · exact readByte_writeByte_other _ (by simpa using h 0 (by simp))
    · intro k hk
      rw [addr_succ, writeByte_routes]
      exact h (k + 1) (by simpa using hk)

/-- An address that shares the byte of one of those written reads the last one written there. -/
theorem readByte_writeBytes (s : State) (a c : Word) (bs : List Byte) (k : Nat) (hk : k < bs.length)
    (hc : sharesByte s.routes (a + BitVec.ofNat 32 k) c = true)
    (hl : ∀ j < bs.length, k < j → sharesByte s.routes (a + BitVec.ofNat 32 j) c = false) :
    readByte (writeBytes s a bs) c = bs[k] := by
  induction bs generalizing s a k with
  | nil => simp at hk
  | cons b bs ih =>
    simp only [List.length_cons] at hk hl
    cases k with
    | zero =>
      simp only [writeBytes, List.getElem_cons_zero]
      rw [readByte_writeBytes_other]
      · exact readByte_writeByte_shared _ (by simpa using hc)
      · intro j hj
        rw [addr_succ, writeByte_routes]
        exact hl (j + 1) (by omega) (by omega)
    | succ k =>
      simp only [writeBytes, List.getElem_cons_succ]
      refine ih _ _ k (by omega) (by rw [addr_succ, writeByte_routes]; exact hc) fun j hj hkj => ?_
      rw [addr_succ, writeByte_routes]
      exact hl (j + 1) (by omega) (by omega)

/-! ### Which addresses exist -/

theorem firstUnmapped_eq_none {routes : List Route} {a : Word} {n : Nat}
    (h : ∀ k < n, isMapped routes (a + BitVec.ofNat 32 k) = true) : firstUnmapped routes a n = none := by
  induction n generalizing a with
  | zero => rfl
  | succ n ih =>
    simp only [firstUnmapped]
    rw [if_pos (by simpa using h 0 (by omega))]
    exact ih (fun k hk => by rw [addr_succ]; exact h (k + 1) (by omega))

theorem firstUnmapped_eq_some {routes : List Route} {a : Word} {n k : Nat} (hk : k < n)
    (hu : isMapped routes (a + BitVec.ofNat 32 k) = false)
    (h : ∀ j < k, isMapped routes (a + BitVec.ofNat 32 j) = true) :
    firstUnmapped routes a n = some (a + BitVec.ofNat 32 k) := by
  induction n generalizing a k with
  | zero => omega
  | succ n ih =>
    simp only [firstUnmapped]
    cases k with
    | zero => rw [if_neg (by simpa using hu)]; simp
    | succ k =>
      rw [if_pos (by simpa using h 0 (by omega)), ← addr_succ a k]
      exact ih (k := k) (by omega) (by rw [addr_succ]; exact hu) (fun j hj => by rw [addr_succ]; exact h (j + 1) (by omega))

/-- The two answers of `firstUnmapped`: every address is mapped, or there is a lowest unmapped one. -/
theorem firstUnmapped_cases (routes : List Route) (a : Word) (n : Nat) :
    (firstUnmapped routes a n = none ∧ ∀ k < n, isMapped routes (a + BitVec.ofNat 32 k) = true) ∨
    ∃ k < n, firstUnmapped routes a n = some (a + BitVec.ofNat 32 k) ∧
      isMapped routes (a + BitVec.ofNat 32 k) = false ∧ ∀ j < k, isMapped routes (a + BitVec.ofNat 32 j) = true := by
  induction n generalizing a with
  | zero => exact .inl ⟨rfl, by omega⟩
  | succ n ih =>
    by_cases hm : isMapped routes a = true
    · rcases ih (a + 1#32) with ⟨h, hall⟩ | ⟨k, hk, h, hu, hall⟩
      · refine .inl ⟨by simp [firstUnmapped, hm, h], fun k hk => ?_⟩
        cases k with
        | zero => simpa using hm
        | succ k => rw [← addr_succ]; exact hall k (by omega)
      · refine .inr ⟨k + 1, by omega, by simp [firstUnmapped, hm, h, addr_succ], by rw [← addr_succ]; exact hu, ?_⟩
        intro j hj
        cases j with
        | zero => simpa using hm
        | succ j => rw [← addr_succ]; exact hall j (by omega)
    · exact .inr ⟨0, by omega, by simp [firstUnmapped, hm], by simpa using hm, by omega⟩

/-! ### Little-endian values -/

theorem leNat_lt (bs : List Byte) : leNat bs < 2 ^ (8 * bs.length) := by
  induction bs with
  | nil => simp [leNat]
  | cons b bs ih =>
    have hb := b.isLt
    simp only [leNat, List.length_cons, Nat.mul_add, Nat.pow_add]
    omega

/-- Byte `k` of the number. -/
theorem leNat_byte (bs : List Byte) (k : Nat) (h : k < bs.length) : leNat bs / 2 ^ (8 * k) % 2 ^ 8 = bs[k].toNat := by
  induction bs generalizing k with
  | nil => simp at h
  | cons b bs ih =>
    have hb := b.isLt
    cases k with
    | zero => simp only [leNat, List.getElem_cons_zero]; omega
    | succ k =>
      simp only [leNat, List.getElem_cons_succ, Nat.mul_add, Nat.pow_add, Nat.mul_one]
      rw [← ih k (by simpa using h), Nat.mul_comm (2 ^ (8 * k)), ← Nat.div_div_eq_div_mul]
      congr 2
      omega

@[simp] theorem leBytesFrom_length {bits : Nat} (v : BitVec bits) (k n : Nat) : (leBytesFrom v k n).length = n := by
  induction n generalizing k with
  | zero => rfl
  | succ n ih => simp [leBytesFrom, ih]

@[simp] theorem leBytes_length {bits : Nat} (v : BitVec bits) : (leBytes v).length = bits / 8 :=
  leBytesFrom_length v 0 (bits / 8)

theorem leBytesFrom_getElem {bits : Nat} (v : BitVec bits) (j n k : Nat) (h : k < (leBytesFrom v j n).length) :
    (leBytesFrom v j n)[k] = v.extractLsb' (8 * (j + k)) 8 := by
  induction n generalizing j k with
  | zero => simp at h
  | succ n ih =>
    cases k with
    | zero => simp [leBytesFrom]
    | succ k => simp only [leBytesFrom, List.getElem_cons_succ]; rw [ih]; congr 2; omega

/-- Byte `k` of a value laid out (R45). -/
theorem leBytes_getElem {bits : Nat} (v : BitVec bits) (k : Nat) (h : k < (leBytes v).length) :
    (leBytes v)[k] = v.extractLsb' (8 * k) 8 := by
  have h' := leBytesFrom_getElem v 0 (bits / 8) k h
  simp only [Nat.zero_add] at h'
  exact h'

theorem leNat_leBytesFrom {bits : Nat} (v : BitVec bits) (k n : Nat) :
    leNat (leBytesFrom v k n) = v.toNat / 2 ^ (8 * k) % 2 ^ (8 * n) := by
  induction n generalizing k with
  | zero => simp [leBytesFrom, leNat, Nat.mod_one]
  | succ n ih =>
    simp only [leBytesFrom, leNat, ih, BitVec.extractLsb'_toNat, Nat.shiftRight_eq_div_pow]
    rw [show 8 * (k + 1) = 8 * k + 8 by omega, Nat.pow_add, ← Nat.div_div_eq_div_mul,
      show 8 * (n + 1) = 8 + 8 * n by omega, Nat.pow_add, Nat.mod_mul]

/-- A value of whole bytes, laid out and read back. -/
theorem ofNat_leNat_leBytes {n : Nat} (v : BitVec (8 * n)) : BitVec.ofNat (8 * n) (leNat (leBytes v)) = v := by
  apply BitVec.eq_of_toNat_eq
  have hv := v.isLt
  rw [BitVec.toNat_ofNat, leBytes, leNat_leBytesFrom]
  simp only [Nat.mul_zero, Nat.pow_zero, Nat.div_one]
  rw [Nat.mul_div_cancel_left n (by omega : 0 < 8), Nat.mod_mod, Nat.mod_eq_of_lt hv]

/-! ### `MemRead` and `MemWrite` -/

/-- What a read of mapped bytes gives (R44). -/
theorem memRead_eq_ok {bits : Nat} {s : State} {addr : Word}
    (h : ∀ k < bits / 8, isMapped s.routes (addr + BitVec.ofNat 32 k) = true) :
    memRead bits s addr = .ok (BitVec.ofNat bits (leNat (readBytes s addr (bits / 8)))) := by
  simp [memRead, firstUnmapped_eq_none h]

/-- A read meets its lowest unmapped byte (R44, R261). -/
theorem memRead_eq_error {bits : Nat} {s : State} {addr : Word} {k : Nat} (hk : k < bits / 8)
    (hu : isMapped s.routes (addr + BitVec.ofNat 32 k) = false)
    (h : ∀ j < k, isMapped s.routes (addr + BitVec.ofNat 32 j) = true) :
    memRead bits s addr = .error (addr + BitVec.ofNat 32 k) := by
  simp [memRead, firstUnmapped_eq_some hk hu h]

/-- What a write to mapped bytes gives (R45). -/
theorem memWrite_eq_ok {bits : Nat} {s : State} {addr : Word} (v : BitVec bits)
    (h : ∀ k < bits / 8, isMapped s.routes (addr + BitVec.ofNat 32 k) = true) :
    memWrite s addr v = .ok (writeBytes s addr (leBytes v)) := by
  simp [memWrite, firstUnmapped_eq_none h]

/-- A write meets its lowest unmapped byte, and gives no state (R45, R261). -/
theorem memWrite_eq_error {bits : Nat} {s : State} {addr : Word} (v : BitVec bits) {k : Nat} (hk : k < bits / 8)
    (hu : isMapped s.routes (addr + BitVec.ofNat 32 k) = false)
    (h : ∀ j < k, isMapped s.routes (addr + BitVec.ofNat 32 j) = true) :
    memWrite s addr v = .error (addr + BitVec.ofNat 32 k) := by
  simp [memWrite, firstUnmapped_eq_some hk hu h]

/-- Everything a write can answer: the bytes written with all of them mapped, or an address and no state. -/
theorem memWrite_cases {bits : Nat} (s : State) (addr : Word) (v : BitVec bits) :
    (memWrite s addr v = .ok (writeBytes s addr (leBytes v)) ∧
      ∀ k < bits / 8, isMapped s.routes (addr + BitVec.ofNat 32 k) = true) ∨
    ∃ k < bits / 8, memWrite s addr v = .error (addr + BitVec.ofNat 32 k) := by
  rcases firstUnmapped_cases s.routes addr (bits / 8) with ⟨_, h⟩ | ⟨k, hk, _, hu, h⟩
  · exact .inl ⟨memWrite_eq_ok v h, h⟩
  · exact .inr ⟨k, hk, memWrite_eq_error v hk hu h⟩

/-- Every read and every write sees memory through MAPPED and the bytes alone. -/
theorem memRead_congr {bits : Nat} {s t : State} {addr : Word}
    (hm : ∀ a, isMapped t.routes a = isMapped s.routes a) (hb : ∀ a, readByte t a = readByte s a) :
    memRead bits t addr = memRead bits s addr := by
  have hf : ∀ n a, firstUnmapped t.routes a n = firstUnmapped s.routes a n := by
    intro n
    induction n with
    | zero => intro a; rfl
    | succ n ih => intro a; simp only [firstUnmapped, hm, ih]
  have hr : readBytes t addr (bits / 8) = readBytes s addr (bits / 8) := readBytes_congr (fun k _ => hb _)
  simp only [memRead, hf, hr]

/-! ### The canonical form is canonical -/

theorem memByte_below {k : Nat} {m : Memory} (h : risesAbove k m = true) (a : Nat) (ha : a ≤ k) :
    memByte m a = unlistedByte := by
  induction m generalizing k with
  | nil => rfl
  | cons c m ih =>
    simp only [risesAbove, Bool.and_eq_true, decide_eq_true_eq] at h
    simp only [memByte]
    rw [if_neg (by omega)]
    exact ih h.2 (by omega)

theorem memory_ext_rises {m n : Memory} (hm : rises m = true) (hn : rises n = true)
    (um : ∀ c ∈ m, c.2 ≠ unlistedByte) (un : ∀ c ∈ n, c.2 ≠ unlistedByte) (h : ∀ a, memByte m a = memByte n a) :
    m = n := by
  induction m generalizing n with
  | nil =>
    cases n with
    | nil => rfl
    | cons c n =>
      have e := h c.1
      simp only [memByte, if_true] at e
      exact absurd e.symm (un c (by simp))
  | cons c m ih =>
    cases n with
    | nil =>
      have e := h c.1
      simp only [memByte, if_true] at e
      exact absurd e (um c (by simp))
    | cons d n =>
      have hk : c.1 = d.1 := by
        have h1 := h c.1
        have h2 := h d.1
        simp only [memByte, if_true] at h1 h2
        rcases Nat.lt_trichotomy c.1 d.1 with hlt | heq | hgt
        · rw [if_neg (by omega), memByte_below hn _ (by omega)] at h1
          exact absurd h1 (um c (by simp))
        · exact heq
        · rw [if_neg (by omega), memByte_below hm _ (by omega)] at h2
          exact absurd h2.symm (un d (by simp))
      have hv : c.2 = d.2 := by
        have h1 := h c.1
        simp only [memByte, if_true, hk] at h1
        exact h1
      have hcd : c = d := Prod.ext hk hv
      subst hcd
      congr 1
      refine ih (risesAbove_rises hm) (risesAbove_rises hn) (fun x hx => um x (by simp [hx]))
        (fun x hx => un x (by simp [hx])) fun a => ?_
      by_cases ha : a ≤ c.1
      · rw [memByte_below hm a ha, memByte_below hn a ha]
      · have e := h a
        simp only [memByte] at e
        rw [if_neg (by omega), if_neg (by omega)] at e
        exact e

/-- Two canonical memories that read the same everywhere are the same list. -/
theorem memory_ext {m n : Memory} (hm : m.wf = true) (hn : n.wf = true) (h : ∀ a, memByte m a = memByte n a) :
    m = n := by
  simp only [Memory.wf, Bool.and_eq_true, List.all_eq_true, decide_eq_true_eq] at hm hn
  exact memory_ext_rises hm.1 hn.1 hm.2 hn.2 h

end Sys2Proof.Machine
end

