-- ==== Sys2Proof/Laws/Boot.lean ====
section
/-! SUPPORT. The initial state (R36, R291): INIT_MEM touches the memory alone, and which of its entries an address reads. -/

namespace Sys2Proof.Machine

open Sys2Proof.Safety

@[simp] theorem placeInitMem_regs (s : State) (init : List (Nat × Byte)) : (placeInitMem s init).regs = s.regs := by
  induction init with
  | nil => rfl
  | cons c init ih => simp only [placeInitMem]; split <;> simp [ih]
@[simp] theorem placeInitMem_pc (s : State) (init : List (Nat × Byte)) : (placeInitMem s init).pc = s.pc := by
  induction init with
  | nil => rfl
  | cons c init ih => simp only [placeInitMem]; split <;> simp [ih]
@[simp] theorem placeInitMem_status (s : State) (init : List (Nat × Byte)) :
    (placeInitMem s init).status = s.status := by
  induction init with
  | nil => rfl
  | cons c init ih => simp only [placeInitMem]; split <;> simp [ih]
@[simp] theorem placeInitMem_routes (s : State) (init : List (Nat × Byte)) :
    (placeInitMem s init).routes = s.routes := by
  induction init with
  | nil => rfl
  | cons c init ih => simp only [placeInitMem]; split <;> simp [ih]

@[simp] theorem boot_pc (c : Config) : (boot c).pc = c.resetPc := by simp [boot]
@[simp] theorem boot_status (c : Config) : (boot c).status = .running := by simp [boot]
@[simp] theorem boot_routes (c : Config) : (boot c).routes = c.routes := by simp [boot]

theorem readByte_empty {s : State} (h : s.mem = []) (a : Word) : readByte s a = unlistedByte := by
  unfold readByte
  split
  · simp [h, memByte]
  · rfl

/-- Over an empty memory, an address reads the first entry of INIT_MEM for its byte. -/
theorem readByte_placeInitMem {s : State} (h : s.mem = []) (init : List (Nat × Byte)) (a : Word) :
    readByte (placeInitMem s init) a = initByte s.routes init a := by
  induction init with
  | nil => exact readByte_empty h a
  | cons c init ih =>
    obtain ⟨k, b⟩ := c
    simp only [placeInitMem, initByte, List.find?_cons]
    by_cases hk : k < 2 ^ 32
    · rw [if_pos hk, readByte_writeByte, placeInitMem_routes, ih, decide_eq_true hk, Bool.true_and]
      cases sharesByte s.routes (BitVec.ofNat 32 k) a <;> rfl
    · rw [if_neg hk, ih, decide_eq_false hk]
      rfl

end Sys2Proof.Machine
end

