-- ==== Sys2Proof/Laws/Operands.lean ====
section
/-! SUPPORT. What each shared shape of Machine/Operands.lean can answer, in the terms of Safety. -/

namespace Sys2Proof.Machine

open Sys2Proof.Safety

/-! ### Alignment -/

theorem extractLow_eq_zero (a : Word) : a.extractLsb' 0 2 = 0b00#2 ↔ alignedAddress a := by
  constructor
  · intro h
    have h := congrArg BitVec.toNat h
    simpa [BitVec.extractLsb'_toNat] using h
  · intro h
    apply BitVec.eq_of_toNat_eq
    simpa [BitVec.extractLsb'_toNat] using h

theorem alignedAddress_add_four {a : Word} (h : alignedAddress a) : alignedAddress (a + 4#32) := by
  unfold alignedAddress at *
  simp only [BitVec.toNat_add, BitVec.toNat_ofNat]
  omega

/-! ### The next states of the shapes -/

theorem writesRegister_writeReg (s : State) (rd : RegIdx) (v : Word) :
    writesRegister s (setPc (writeReg s rd v) (s.pc + 4#32)) rd v :=
  ⟨fun r => by simpa using readReg_writeReg s rd r v, fun a => by simp, by simp, by simp, by simp⟩

theorem linksAndGoes_writeReg (s : State) (rd : RegIdx) (p : Word) :
    linksAndGoes s (setPc (writeReg s rd (s.pc + 4#32)) p) rd p :=
  ⟨fun r => by simpa using readReg_writeReg s rd r _, fun a => by simp, by simp, by simp, by simp⟩

theorem goesTo_setPc (s : State) (p : Word) : goesTo s (setPc s p) p :=
  ⟨fun _ => rfl, fun _ => rfl, rfl, rfl, rfl⟩

theorem faultsWith_raise (s : State) (r : FaultRecord) : faultsWith s (raise s r) r :=
  ⟨fun _ => rfl, fun _ => rfl, rfl, rfl, rfl⟩

theorem bytesWritten_writeBytes (s : State) (a : Word) (bs : List Byte) (f : Nat → Byte)
    (hf : ∀ k (h : k < bs.length), bs[k] = f k) : bytesWritten s (writeBytes s a bs) a bs.length f :=
  ⟨fun b k hk hb hl => hf k hk ▸ readByte_writeBytes s a b bs k hk hb hl,
    fun b hb => readByte_writeBytes_other s a b bs hb⟩

theorem storesBytes_writeBytes (s : State) (a : Word) (bs : List Byte) (f : Nat → Byte)
    (hf : ∀ k (h : k < bs.length), bs[k] = f k) :
    storesBytes s (setPc (writeBytes s a bs) (s.pc + 4#32)) a bs.length f :=
  ⟨bytesWritten_writeBytes s a bs f hf, fun r => by simp, by simp, by simp, by simp⟩

/-- Of bytes written at addresses that lead to different ones, each is read back, through any address that shares it. -/
theorem bytesWritten_readBack {s t : State} {a b : Word} {n : Nat} {bytes : Nat → Byte} (h : bytesWritten s t a n bytes)
    (hd : distinctBytes s a n) {k : Nat} (hk : k < n) (hb : sharesByte s.routes (a + BitVec.ofNat 32 k) b = true) :
    readByte t b = bytes k := by
  refine h.1 b k hk hb fun j hj hkj => ?_
  by_contra hc
  have hj' := hd j hj k hk (sharesByte_trans (by simpa using hc) (sharesByte_symm hb))
  omega

/-- The location an address leads to is reachable, so a byte written keeps `memoryOk`. -/
theorem reachable_of_locationOf {routes : List Route} {a : Word} {k : Nat} (h : locationOf routes a = some k) :
    reachable routes k = true := by
  have h' := h
  unfold locationOf at h'
  cases hr : routeOf routes a with
  | none => simp [hr] at h'
  | some p =>
    obtain ⟨r, hm, -, ho⟩ := routeOf_mem (store := p.1) (offset := p.2) hr
    simp only [hr, Option.some.injEq] at h'
    have hk : BitVec.ofNat 32 k = a - r.first := by
      rw [ho, ← h']
      apply BitVec.eq_of_toNat_eq
      have := p.2.isLt
      simp
      omega
    refine List.any_eq_true.2 ⟨r, hm, ?_⟩
    rw [hk, BitVec.add_comm, BitVec.sub_add_cancel, h, decide_eq_true rfl]

/-! ### Jumps and branches -/

theorem jump_aligned {s : State} {inst target : Word} (h : alignedAddress target) :
    jump s inst target = .ok target := by
  simp [jump, (extractLow_eq_zero target).2 h]

theorem jump_misaligned {s : State} {inst target : Word} (h : ¬ alignedAddress target) :
    jump s inst target = .error (misalignedRecord s.pc (some inst) target) := by
  simp [jump, mt (extractLow_eq_zero target).1 h]

theorem jumpAndLink_aligned {inst : Word} {rd : RegIdx} {target : Word} {s : State} (h : alignedAddress target) :
    jumpAndLink inst rd target s = .next (setPc (writeReg s rd (s.pc + 4#32)) target) := by
  simp [jumpAndLink, jump_aligned h]

theorem jumpAndLink_misaligned {inst : Word} {rd : RegIdx} {target : Word} {s : State} (h : ¬ alignedAddress target) :
    jumpAndLink inst rd target s = .next (raise s (misalignedRecord s.pc (some inst) target)) := by
  simp [jumpAndLink, jump_misaligned h, raised]

theorem branch_notTaken {taken : Word → Word → Bool} {inst : Word} {rs1 rs2 : RegIdx} {offset : BitVec 13} {s : State}
    (h : taken (readReg s rs1) (readReg s rs2) = false) :
    branch taken inst rs1 rs2 offset s = .next (setPc s (s.pc + 4#32)) := by
  simp [branch, h]

theorem branch_taken {taken : Word → Word → Bool} {inst : Word} {rs1 rs2 : RegIdx} {offset : BitVec 13} {s : State}
    (h : taken (readReg s rs1) (readReg s rs2) = true) (ha : alignedAddress (s.pc + sext32 offset)) :
    branch taken inst rs1 rs2 offset s = .next (setPc s (s.pc + sext32 offset)) := by
  simp [branch, h, jump_aligned ha]

theorem branch_misaligned {taken : Word → Word → Bool} {inst : Word} {rs1 rs2 : RegIdx} {offset : BitVec 13}
    {s : State} (h : taken (readReg s rs1) (readReg s rs2) = true) (ha : ¬ alignedAddress (s.pc + sext32 offset)) :
    branch taken inst rs1 rs2 offset s =
      .next (raise s (misalignedRecord s.pc (some inst) (s.pc + sext32 offset))) := by
  simp [branch, h, jump_misaligned ha, raised]

/-! ### Loads and stores -/

theorem load_mapped {bits : Nat} {extend : BitVec bits → Word} {inst : Word} {rd rs1 : RegIdx} {imm : BitVec 12}
    {s : State} (h : allMapped s (readReg s rs1 + sext32 imm) (bits / 8)) :
    load bits extend inst rd rs1 imm s =
      .next (setPc (writeReg s rd
        (extend (BitVec.ofNat bits (leNat (readBytes s (readReg s rs1 + sext32 imm) (bits / 8)))))) (s.pc + 4#32)) := by
  simp [load, effectiveAddress, memRead_eq_ok h, writeAndAdvance]

theorem load_unmapped {bits : Nat} {extend : BitVec bits → Word} {inst : Word} {rd rs1 : RegIdx} {imm : BitVec 12}
    {s : State} {k : Nat} (h : lowestUnmapped s (readReg s rs1 + sext32 imm) (bits / 8) k) :
    load bits extend inst rd rs1 imm s =
      .next (raise s (memoryRecord s.pc (some inst) (readReg s rs1 + sext32 imm + BitVec.ofNat 32 k) .load)) := by
  simp [load, effectiveAddress, memRead_eq_error h.1 h.2.1 h.2.2, raised]

theorem store_mapped {bits : Nat} {inst : Word} {rs1 rs2 : RegIdx} {imm : BitVec 12} {s : State}
    (h : allMapped s (readReg s rs1 + sext32 imm) (bits / 8)) :
    store bits inst rs1 rs2 imm s =
      .next (setPc (writeBytes s (readReg s rs1 + sext32 imm) (leBytes ((readReg s rs2).extractLsb' 0 bits)))
        (s.pc + 4#32)) := by
  simp [store, effectiveAddress, memWrite_eq_ok _ h]

theorem store_unmapped {bits : Nat} {inst : Word} {rs1 rs2 : RegIdx} {imm : BitVec 12} {s : State} {k : Nat}
    (h : lowestUnmapped s (readReg s rs1 + sext32 imm) (bits / 8) k) :
    store bits inst rs1 rs2 imm s =
      .next (raise s (memoryRecord s.pc (some inst) (readReg s rs1 + sext32 imm + BitVec.ofNat 32 k) .store)) := by
  simp [store, effectiveAddress, memWrite_eq_error _ h.1 h.2.1 h.2.2, raised]

/-- An access of `n` bytes has every byte mapped, or a lowest unmapped one. -/
theorem mapped_or_lowest (s : State) (a : Word) (n : Nat) : allMapped s a n ∨ ∃ k, lowestUnmapped s a n k := by
  rcases firstUnmapped_cases s.routes a n with ⟨_, h⟩ | ⟨k, hk, _, hu, h⟩
  · exact .inl h
  · exact .inr ⟨k, hk, hu, h⟩

end Sys2Proof.Machine
end

