-- ==== Sys2Proof/Laws/Cycle.lean ====
section
/-! SUPPORT. What fetching can answer (R101) and what a step is in each case (R100, R105). -/

namespace Sys2Proof.Machine

open Sys2Proof.Safety

/-- The word at the pc, the byte at the lowest address least significant (R43). -/
def wordAtPc (s : State) : Word :=
  readByte s (s.pc + 3#32) ++ readByte s (s.pc + 2#32) ++ readByte s (s.pc + 1#32) ++ readByte s s.pc

theorem leNat_four (b0 b1 b2 b3 : Byte) : BitVec.ofNat 32 (leNat [b0, b1, b2, b3]) = b3 ++ b2 ++ b1 ++ b0 := by
  apply BitVec.eq_of_toNat_eq
  show _ = (b3 ++ b2 ++ b1 ++ b0 : BitVec (8 + 8 + 8 + 8)).toNat
  have h0 := b0.isLt
  have h1 := b1.isLt
  have h2 := b2.isLt
  have h3 := b3.isLt
  simp only [BitVec.toNat_append, leNat, BitVec.toNat_ofNat]
  rw [← Nat.shiftLeft_add_eq_or_of_lt h2, ← Nat.shiftLeft_add_eq_or_of_lt h1, ← Nat.shiftLeft_add_eq_or_of_lt h0]
  simp only [Nat.shiftLeft_eq]
  omega

theorem readBytes_four (s : State) (a : Word) :
    readBytes s a 4 = [readByte s a, readByte s (a + 1#32), readByte s (a + 2#32), readByte s (a + 3#32)] := by
  simp only [readBytes, BitVec.add_assoc]
  rfl

theorem fetch_misaligned {s : State} (h : ¬ alignedAddress s.pc) :
    fetch s = .error (misalignedRecord s.pc none s.pc) := by
  simp [fetch, mt (extractLow_eq_zero s.pc).1 h]

theorem fetch_unmapped {s : State} (h : alignedAddress s.pc) {k : Nat} (hk : lowestUnmapped s s.pc 4 k) :
    fetch s = .error (memoryRecord s.pc none (s.pc + BitVec.ofNat 32 k) .fetch) := by
  simp [fetch, (extractLow_eq_zero s.pc).2 h, memRead_eq_error (bits := 32) hk.1 hk.2.1 hk.2.2]

theorem fetch_mapped {s : State} (h : alignedAddress s.pc) (hm : allMapped s s.pc 4) : fetch s = .ok (wordAtPc s) := by
  simp only [fetch, (extractLow_eq_zero s.pc).2 h, memRead_eq_ok (bits := 32) hm, if_true]
  rw [show 32 / 8 = 4 from rfl, readBytes_four, leNat_four]
  rfl

/-- Everything fetching can answer. -/
theorem fetch_cases (s : State) :
    (¬ alignedAddress s.pc ∧ fetch s = .error (misalignedRecord s.pc none s.pc)) ∨
    (alignedAddress s.pc ∧ ∃ k, lowestUnmapped s s.pc 4 k ∧
      fetch s = .error (memoryRecord s.pc none (s.pc + BitVec.ofNat 32 k) .fetch)) ∨
    (alignedAddress s.pc ∧ allMapped s s.pc 4 ∧ fetch s = .ok (wordAtPc s)) := by
  by_cases h : alignedAddress s.pc
  · rcases mapped_or_lowest s s.pc 4 with hm | ⟨k, hk⟩
    · exact .inr (.inr ⟨h, hm, fetch_mapped h hm⟩)
    · exact .inr (.inl ⟨h, k, hk, fetch_unmapped h hk⟩)
  · exact .inl ⟨h, fetch_misaligned h⟩

theorem step_faulted {s : State} {r : FaultRecord} (h : s.status = .faulted r) : step s = .fault (.coreFaulted r) := by
  simp [step, h]

theorem step_fetchFault {s : State} (h : s.status = .running) {r : FaultRecord} (hf : fetch s = .error r) :
    step s = .next (raise s r) := by
  simp [step, h, nextInstr, hf, raised]

theorem step_unimplemented {s : State} (h : s.status = .running) {w : Word} (hf : fetch s = .ok w) {e : Reject}
    (hd : decodeWord w = .error e) : step s = .next (raise s (unimplementedRecord s.pc w)) := by
  simp [step, h, nextInstr, hf, hd, raised]

theorem step_runs {s : State} (h : s.status = .running) {w : Word} (hf : fetch s = .ok w) {i : Instr}
    (hd : decodeWord w = .ok i) : step s = exec i s := by
  simp [step, h, nextInstr, hf, hd]

/-- Everything a step with a next state can be: a fetch fault, a word with no instruction, or the effect of the one
fetched. -/
theorem step_cases {s t : State} (h : step s = .next t) :
    s.status = .running ∧
    ((¬ alignedAddress s.pc ∧ t = raise s (misalignedRecord s.pc none s.pc)) ∨
     (alignedAddress s.pc ∧ ∃ k, lowestUnmapped s s.pc 4 k ∧
       t = raise s (memoryRecord s.pc none (s.pc + BitVec.ofNat 32 k) .fetch)) ∨
     (alignedAddress s.pc ∧ allMapped s s.pc 4 ∧ (∃ e, decodeWord (wordAtPc s) = .error e) ∧
       t = raise s (unimplementedRecord s.pc (wordAtPc s))) ∨
     (alignedAddress s.pc ∧ allMapped s s.pc 4 ∧ ∃ i, decodeWord (wordAtPc s) = .ok i ∧ exec i s = .next t)) := by
  cases hs : s.status with
  | faulted r => rw [step_faulted hs] at h; cases h
  | running =>
    refine ⟨rfl, ?_⟩
    rcases fetch_cases s with ⟨ha, hf⟩ | ⟨ha, k, hk, hf⟩ | ⟨ha, hm, hf⟩
    · rw [step_fetchFault hs hf] at h; cases h
      exact .inl ⟨ha, rfl⟩
    · rw [step_fetchFault hs hf] at h; cases h
      exact .inr (.inl ⟨ha, k, hk, rfl⟩)
    · cases hd : decodeWord (wordAtPc s) with
      | error e =>
        rw [step_unimplemented hs hf hd] at h; cases h
        exact .inr (.inr (.inl ⟨ha, hm, ⟨e, rfl⟩, rfl⟩))
      | ok i =>
        rw [step_runs hs hf hd] at h
        exact .inr (.inr (.inr ⟨ha, hm, i, rfl, h⟩))

end Sys2Proof.Machine
end

