-- ==== Sys2Proof/Laws/Fields.lean ====
section
/-! SUPPORT. The bits of each format (R60), the fields read back from it (R62 to R72), and the format rebuilt from a
word's own fields. -/

namespace Sys2Proof

/-! ### The bits of a word in each format -/

theorem encodeR_getLsbD (f7 : BitVec 7) (r2 r1 : RegIdx) (f3 : BitVec 3) (rd : RegIdx) (op : BitVec 7) (k : Nat) :
    (encodeR f7 r2 r1 f3 rd op).getLsbD k =
      if k < 7 then op.getLsbD k else if k < 12 then rd.getLsbD (k - 7) else if k < 15 then f3.getLsbD (k - 12)
      else if k < 20 then r1.getLsbD (k - 15) else if k < 25 then r2.getLsbD (k - 20) else f7.getLsbD (k - 25) := by
  show BitVec.getLsbD (f7 ++ r2 ++ r1 ++ f3 ++ rd ++ op : BitVec (7 + 5 + 5 + 3 + 5 + 7)) k = _
  simp only [BitVec.getLsbD_append]
  repeat' split
  all_goals first | rfl | omega

theorem encodeI_getLsbD (imm : BitVec 12) (r1 : RegIdx) (f3 : BitVec 3) (rd : RegIdx) (op : BitVec 7) (k : Nat) :
    (encodeI imm r1 f3 rd op).getLsbD k =
      if k < 7 then op.getLsbD k else if k < 12 then rd.getLsbD (k - 7) else if k < 15 then f3.getLsbD (k - 12)
      else if k < 20 then r1.getLsbD (k - 15) else imm.getLsbD (k - 20) := by
  show BitVec.getLsbD (imm ++ r1 ++ f3 ++ rd ++ op : BitVec (12 + 5 + 3 + 5 + 7)) k = _
  simp only [BitVec.getLsbD_append]
  repeat' split
  all_goals first | rfl | omega

theorem encodeS_getLsbD (imm : BitVec 12) (r2 r1 : RegIdx) (f3 : BitVec 3) (op : BitVec 7) (k : Nat) (hk : k < 32) :
    (encodeS imm r2 r1 f3 op).getLsbD k =
      if k < 7 then op.getLsbD k else if k < 12 then imm.getLsbD (k - 7) else if k < 15 then f3.getLsbD (k - 12)
      else if k < 20 then r1.getLsbD (k - 15) else if k < 25 then r2.getLsbD (k - 20)
      else imm.getLsbD (k - 20) := by
  show BitVec.getLsbD (imm.extractLsb' 5 7 ++ r2 ++ r1 ++ f3 ++ imm.extractLsb' 0 5 ++ op :
    BitVec (7 + 5 + 5 + 3 + 5 + 7)) k = _
  simp only [BitVec.getLsbD_append, BitVec.getLsbD_extractLsb']
  repeat' split
  all_goals first
    | rfl
    | omega
    | (simp (disch := omega) only [decide_eq_true, Bool.true_and]; congr 1; omega)

theorem encodeB_getLsbD (imm : BitVec 13) (r2 r1 : RegIdx) (f3 : BitVec 3) (op : BitVec 7) (k : Nat) (hk : k < 32) :
    (encodeB imm r2 r1 f3 op).getLsbD k =
      if k < 7 then op.getLsbD k else if k < 8 then imm.getLsbD 11 else if k < 12 then imm.getLsbD (k - 7)
      else if k < 15 then f3.getLsbD (k - 12) else if k < 20 then r1.getLsbD (k - 15)
      else if k < 25 then r2.getLsbD (k - 20) else if k < 31 then imm.getLsbD (k - 20) else imm.getLsbD 12 := by
  show BitVec.getLsbD (imm.extractLsb' 12 1 ++ imm.extractLsb' 5 6 ++ r2 ++ r1 ++ f3 ++ imm.extractLsb' 1 4 ++
    imm.extractLsb' 11 1 ++ op : BitVec (1 + 6 + 5 + 5 + 3 + 4 + 1 + 7)) k = _
  simp only [BitVec.getLsbD_append, BitVec.getLsbD_extractLsb']
  repeat' split
  all_goals first
    | rfl
    | omega
    | (simp (disch := omega) only [decide_eq_true, Bool.true_and]; congr 1; omega)

theorem encodeU_getLsbD (imm : BitVec 20) (rd : RegIdx) (op : BitVec 7) (k : Nat) :
    (encodeU imm rd op).getLsbD k =
      if k < 7 then op.getLsbD k else if k < 12 then rd.getLsbD (k - 7) else imm.getLsbD (k - 12) := by
  show BitVec.getLsbD (imm ++ rd ++ op : BitVec (20 + 5 + 7)) k = _
  simp only [BitVec.getLsbD_append]
  repeat' split
  all_goals first | rfl | omega

theorem encodeJ_getLsbD (imm : BitVec 21) (rd : RegIdx) (op : BitVec 7) (k : Nat) (hk : k < 32) :
    (encodeJ imm rd op).getLsbD k =
      if k < 7 then op.getLsbD k else if k < 12 then rd.getLsbD (k - 7) else if k < 20 then imm.getLsbD k
      else if k < 21 then imm.getLsbD 11 else if k < 31 then imm.getLsbD (k - 20) else imm.getLsbD 20 := by
  show BitVec.getLsbD (imm.extractLsb' 20 1 ++ imm.extractLsb' 1 10 ++ imm.extractLsb' 11 1 ++ imm.extractLsb' 12 8 ++
    rd ++ op : BitVec (1 + 10 + 1 + 8 + 5 + 7)) k = _
  simp only [BitVec.getLsbD_append, BitVec.getLsbD_extractLsb']
  repeat' split
  all_goals first
    | rfl
    | omega
    | (simp (disch := omega) only [decide_eq_true, Bool.true_and]; congr 1; omega)

/-! ### A field read back from a format -/

/-- A slice of a word is a value when their bits agree. -/
theorem slice_eq {n : Nat} {w : Word} {lo : Nat} {v : BitVec n} (h : ∀ i < n, w.getLsbD (lo + i) = v.getLsbD i) :
    w.extractLsb' lo n = v := by
  apply BitVec.eq_of_getLsbD_eq
  intro i hi
  rw [BitVec.getLsbD_extractLsb', h i hi]
  simp [hi]

section R
variable (f7 : BitVec 7) (r2 r1 : RegIdx) (f3 : BitVec 3) (rd : RegIdx) (op : BitVec 7)

@[simp] theorem lowBitsOf_encodeR : lowBitsOf (encodeR f7 r2 r1 f3 rd op) = op.extractLsb' 0 2 :=
  slice_eq fun i hi => by
    simp (disch := omega) only [encodeR_getLsbD, if_pos, BitVec.getLsbD_extractLsb', decide_eq_true, Bool.true_and]
@[simp] theorem opcodeOf_encodeR : opcodeOf (encodeR f7 r2 r1 f3 rd op) = op.extractLsb' 2 5 :=
  slice_eq fun i hi => by
    simp (disch := omega) only [encodeR_getLsbD, if_pos, BitVec.getLsbD_extractLsb', decide_eq_true, Bool.true_and]
@[simp] theorem rdOf_encodeR : rdOf (encodeR f7 r2 r1 f3 rd op) = rd :=
  slice_eq fun i hi => by
    simp (disch := omega) only [encodeR_getLsbD, if_pos, if_neg, Nat.add_sub_cancel_left]
@[simp] theorem funct3Of_encodeR : funct3Of (encodeR f7 r2 r1 f3 rd op) = f3 :=
  slice_eq fun i hi => by
    simp (disch := omega) only [encodeR_getLsbD, if_pos, if_neg, Nat.add_sub_cancel_left]
@[simp] theorem rs1Of_encodeR : rs1Of (encodeR f7 r2 r1 f3 rd op) = r1 :=
  slice_eq fun i hi => by
    simp (disch := omega) only [encodeR_getLsbD, if_pos, if_neg, Nat.add_sub_cancel_left]
@[simp] theorem rs2Of_encodeR : rs2Of (encodeR f7 r2 r1 f3 rd op) = r2 :=
  slice_eq fun i hi => by
    simp (disch := omega) only [encodeR_getLsbD, if_pos, if_neg, Nat.add_sub_cancel_left]
@[simp] theorem shamtOf_encodeR : shamtOf (encodeR f7 r2 r1 f3 rd op) = r2 := rs2Of_encodeR f7 r2 r1 f3 rd op
@[simp] theorem funct7Of_encodeR : funct7Of (encodeR f7 r2 r1 f3 rd op) = f7 :=
  slice_eq fun i hi => by
    simp (disch := omega) only [encodeR_getLsbD, if_neg, Nat.add_sub_cancel_left]
@[simp] theorem funct10Of_encodeR : funct10Of (encodeR f7 r2 r1 f3 rd op) = f7 ++ f3 := by simp [funct10Of]
end R

section I
variable (imm : BitVec 12) (r1 : RegIdx) (f3 : BitVec 3) (rd : RegIdx) (op : BitVec 7)

@[simp] theorem lowBitsOf_encodeI : lowBitsOf (encodeI imm r1 f3 rd op) = op.extractLsb' 0 2 :=
  slice_eq fun i hi => by
    simp (disch := omega) only [encodeI_getLsbD, if_pos, BitVec.getLsbD_extractLsb', decide_eq_true, Bool.true_and]
@[simp] theorem opcodeOf_encodeI : opcodeOf (encodeI imm r1 f3 rd op) = op.extractLsb' 2 5 :=
  slice_eq fun i hi => by
    simp (disch := omega) only [encodeI_getLsbD, if_pos, BitVec.getLsbD_extractLsb', decide_eq_true, Bool.true_and]
@[simp] theorem rdOf_encodeI : rdOf (encodeI imm r1 f3 rd op) = rd :=
  slice_eq fun i hi => by
    simp (disch := omega) only [encodeI_getLsbD, if_pos, if_neg, Nat.add_sub_cancel_left]
@[simp] theorem funct3Of_encodeI : funct3Of (encodeI imm r1 f3 rd op) = f3 :=
  slice_eq fun i hi => by
    simp (disch := omega) only [encodeI_getLsbD, if_pos, if_neg, Nat.add_sub_cancel_left]
@[simp] theorem rs1Of_encodeI : rs1Of (encodeI imm r1 f3 rd op) = r1 :=
  slice_eq fun i hi => by
    simp (disch := omega) only [encodeI_getLsbD, if_pos, if_neg, Nat.add_sub_cancel_left]
@[simp] theorem fieldI_encodeI : fieldI (encodeI imm r1 f3 rd op) = imm :=
  slice_eq fun i hi => by
    simp (disch := omega) only [encodeI_getLsbD, if_neg, Nat.add_sub_cancel_left]
end I

section S
variable (imm : BitVec 12) (r2 r1 : RegIdx) (f3 : BitVec 3) (op : BitVec 7)

@[simp] theorem lowBitsOf_encodeS : lowBitsOf (encodeS imm r2 r1 f3 op) = op.extractLsb' 0 2 :=
  slice_eq fun i hi => by
    rw [encodeS_getLsbD _ _ _ _ _ _ (by omega)]
    simp (disch := omega) only [if_pos, BitVec.getLsbD_extractLsb', decide_eq_true, Bool.true_and]
@[simp] theorem opcodeOf_encodeS : opcodeOf (encodeS imm r2 r1 f3 op) = op.extractLsb' 2 5 :=
  slice_eq fun i hi => by
    rw [encodeS_getLsbD _ _ _ _ _ _ (by omega)]
    simp (disch := omega) only [if_pos, BitVec.getLsbD_extractLsb', decide_eq_true, Bool.true_and]
@[simp] theorem funct3Of_encodeS : funct3Of (encodeS imm r2 r1 f3 op) = f3 :=
  slice_eq fun i hi => by
    rw [encodeS_getLsbD _ _ _ _ _ _ (by omega)]
    simp (disch := omega) only [if_pos, if_neg, Nat.add_sub_cancel_left]
@[simp] theorem rs1Of_encodeS : rs1Of (encodeS imm r2 r1 f3 op) = r1 :=
  slice_eq fun i hi => by
    rw [encodeS_getLsbD _ _ _ _ _ _ (by omega)]
    simp (disch := omega) only [if_pos, if_neg, Nat.add_sub_cancel_left]
@[simp] theorem rs2Of_encodeS : rs2Of (encodeS imm r2 r1 f3 op) = r2 :=
  slice_eq fun i hi => by
    rw [encodeS_getLsbD _ _ _ _ _ _ (by omega)]
    simp (disch := omega) only [if_pos, if_neg, Nat.add_sub_cancel_left]
@[simp] theorem fieldS_encodeS : fieldS (encodeS imm r2 r1 f3 op) = imm := by
  apply BitVec.eq_of_getLsbD_eq
  intro i hi
  show BitVec.getLsbD (BitVec.extractLsb' 25 7 _ ++ BitVec.extractLsb' 7 5 _ : BitVec (7 + 5)) i = _
  simp only [BitVec.getLsbD_append, BitVec.getLsbD_extractLsb']
  split
  all_goals rw [encodeS_getLsbD _ _ _ _ _ _ (by omega)]
  · simp (disch := omega) only [if_pos, if_neg, Nat.add_sub_cancel_left, decide_eq_true, Bool.true_and]
  · simp (disch := omega) only [if_neg, decide_eq_true, Bool.true_and]
    congr 1
    omega
end S

section B
variable (imm : BitVec 13) (r2 r1 : RegIdx) (f3 : BitVec 3) (op : BitVec 7)

@[simp] theorem lowBitsOf_encodeB : lowBitsOf (encodeB imm r2 r1 f3 op) = op.extractLsb' 0 2 :=
  slice_eq fun i hi => by
    simp (disch := omega) only [encodeB_getLsbD, if_pos, BitVec.getLsbD_extractLsb', decide_eq_true, Bool.true_and]
@[simp] theorem opcodeOf_encodeB : opcodeOf (encodeB imm r2 r1 f3 op) = op.extractLsb' 2 5 :=
  slice_eq fun i hi => by
    simp (disch := omega) only [encodeB_getLsbD, if_pos, BitVec.getLsbD_extractLsb', decide_eq_true, Bool.true_and]
@[simp] theorem funct3Of_encodeB : funct3Of (encodeB imm r2 r1 f3 op) = f3 :=
  slice_eq fun i hi => by
    simp (disch := omega) only [encodeB_getLsbD, if_pos, if_neg, Nat.add_sub_cancel_left]
@[simp] theorem rs1Of_encodeB : rs1Of (encodeB imm r2 r1 f3 op) = r1 :=
  slice_eq fun i hi => by
    simp (disch := omega) only [encodeB_getLsbD, if_pos, if_neg, Nat.add_sub_cancel_left]
@[simp] theorem rs2Of_encodeB : rs2Of (encodeB imm r2 r1 f3 op) = r2 :=
  slice_eq fun i hi => by
    simp (disch := omega) only [encodeB_getLsbD, if_pos, if_neg, Nat.add_sub_cancel_left]
theorem fieldB_encodeB (h : evenOffset imm = true) : fieldB (encodeB imm r2 r1 f3 op) = imm := by
  have h0 : imm.getLsbD 0 = false := by simpa [evenOffset] using h
  apply BitVec.eq_of_getLsbD_eq
  intro i hi
  show BitVec.getLsbD (BitVec.extractLsb' 31 1 _ ++ BitVec.extractLsb' 7 1 _ ++ BitVec.extractLsb' 25 6 _ ++
    BitVec.extractLsb' 8 4 _ ++ 0#1 : BitVec (1 + 1 + 6 + 4 + 1)) i = _
  simp only [BitVec.getLsbD_append, BitVec.getLsbD_extractLsb']
  repeat' split
  · rw [show i = 0 by omega, h0]; rfl
  all_goals
    rw [encodeB_getLsbD _ _ _ _ _ _ (by omega)]
    simp (disch := omega) only [if_pos, if_neg, decide_eq_true, Bool.true_and]
    congr 1
    omega
end B

section U
variable (imm : BitVec 20) (rd : RegIdx) (op : BitVec 7)

@[simp] theorem lowBitsOf_encodeU : lowBitsOf (encodeU imm rd op) = op.extractLsb' 0 2 :=
  slice_eq fun i hi => by
    simp (disch := omega) only [encodeU_getLsbD, if_pos, BitVec.getLsbD_extractLsb', decide_eq_true, Bool.true_and]
@[simp] theorem opcodeOf_encodeU : opcodeOf (encodeU imm rd op) = op.extractLsb' 2 5 :=
  slice_eq fun i hi => by
    simp (disch := omega) only [encodeU_getLsbD, if_pos, BitVec.getLsbD_extractLsb', decide_eq_true, Bool.true_and]
@[simp] theorem rdOf_encodeU : rdOf (encodeU imm rd op) = rd :=
  slice_eq fun i hi => by
    simp (disch := omega) only [encodeU_getLsbD, if_pos, if_neg, Nat.add_sub_cancel_left]
@[simp] theorem fieldU_encodeU : fieldU (encodeU imm rd op) = imm :=
  slice_eq fun i hi => by
    simp (disch := omega) only [encodeU_getLsbD, if_neg, Nat.add_sub_cancel_left]
end U

section J
variable (imm : BitVec 21) (rd : RegIdx) (op : BitVec 7)

@[simp] theorem lowBitsOf_encodeJ : lowBitsOf (encodeJ imm rd op) = op.extractLsb' 0 2 :=
  slice_eq fun i hi => by
    simp (disch := omega) only [encodeJ_getLsbD, if_pos, BitVec.getLsbD_extractLsb', decide_eq_true, Bool.true_and]
@[simp] theorem opcodeOf_encodeJ : opcodeOf (encodeJ imm rd op) = op.extractLsb' 2 5 :=
  slice_eq fun i hi => by
    simp (disch := omega) only [encodeJ_getLsbD, if_pos, BitVec.getLsbD_extractLsb', decide_eq_true, Bool.true_and]
@[simp] theorem rdOf_encodeJ : rdOf (encodeJ imm rd op) = rd :=
  slice_eq fun i hi => by
    simp (disch := omega) only [encodeJ_getLsbD, if_pos, if_neg, Nat.add_sub_cancel_left]
theorem fieldJ_encodeJ (h : evenOffset imm = true) : fieldJ (encodeJ imm rd op) = imm := by
  have h0 : imm.getLsbD 0 = false := by simpa [evenOffset] using h
  apply BitVec.eq_of_getLsbD_eq
  intro i hi
  show BitVec.getLsbD (BitVec.extractLsb' 31 1 _ ++ BitVec.extractLsb' 12 8 _ ++ BitVec.extractLsb' 20 1 _ ++
    BitVec.extractLsb' 21 10 _ ++ 0#1 : BitVec (1 + 8 + 1 + 10 + 1)) i = _
  simp only [BitVec.getLsbD_append, BitVec.getLsbD_extractLsb']
  repeat' split
  · rw [show i = 0 by omega, h0]; rfl
  all_goals
    rw [encodeJ_getLsbD _ _ _ _ (by omega)]
    simp (disch := omega) only [if_pos, if_neg, decide_eq_true, Bool.true_and]
    congr 1
    omega
end J

/-! ### A format rebuilt from a word's own fields -/

/-- The whole 7-bit field `inst[6:0]` (R62). -/
def majorOf (w : Word) : BitVec 7 := w.extractLsb' 0 7

/-- `major = opcode ++ low bits` (R62). -/
theorem majorOf_eq (w : Word) : majorOf w = (opcodeOf w ++ lowBitsOf w : BitVec (5 + 2)) := by
  apply BitVec.eq_of_getLsbD_eq
  intro i hi
  simp only [majorOf, opcodeOf, lowBitsOf, BitVec.getLsbD_append, BitVec.getLsbD_extractLsb']
  split
  · simp (disch := omega) only [decide_eq_true, Bool.true_and]
  · simp (disch := omega) only [decide_eq_true, Bool.true_and]; congr 1; omega

theorem encodeR_fields (w : Word) :
    encodeR (funct7Of w) (rs2Of w) (rs1Of w) (funct3Of w) (rdOf w) (majorOf w) = w := by
  apply BitVec.eq_of_getLsbD_eq
  intro i hi
  rw [encodeR_getLsbD]
  simp only [funct7Of, rs2Of, rs1Of, funct3Of, rdOf, majorOf, BitVec.getLsbD_extractLsb']
  repeat' split
  all_goals (simp (disch := omega) only [decide_eq_true, Bool.true_and]; congr 1; omega)

theorem encodeI_fields (w : Word) : encodeI (fieldI w) (rs1Of w) (funct3Of w) (rdOf w) (majorOf w) = w := by
  apply BitVec.eq_of_getLsbD_eq
  intro i hi
  rw [encodeI_getLsbD]
  simp only [fieldI, rs1Of, funct3Of, rdOf, majorOf, BitVec.getLsbD_extractLsb']
  repeat' split
  all_goals (simp (disch := omega) only [decide_eq_true, Bool.true_and]; congr 1; omega)

theorem fieldS_getLsbD (w : Word) (i : Nat) (hi : i < 12) :
    (fieldS w).getLsbD i = if i < 5 then w.getLsbD (7 + i) else w.getLsbD (20 + i) := by
  show BitVec.getLsbD (BitVec.extractLsb' 25 7 w ++ BitVec.extractLsb' 7 5 w : BitVec (7 + 5)) i = _
  simp only [BitVec.getLsbD_append, BitVec.getLsbD_extractLsb']
  split
  · simp (disch := omega) only [decide_eq_true, Bool.true_and]
  · simp (disch := omega) only [decide_eq_true, Bool.true_and]; congr 1; omega

theorem fieldB_getLsbD (w : Word) (i : Nat) (hi : i < 13) :
    (fieldB w).getLsbD i =
      if i < 1 then false else if i < 5 then w.getLsbD (7 + i) else if i < 11 then w.getLsbD (20 + i)
      else if i < 12 then w.getLsbD 7 else w.getLsbD 31 := by
  show BitVec.getLsbD (BitVec.extractLsb' 31 1 w ++ BitVec.extractLsb' 7 1 w ++ BitVec.extractLsb' 25 6 w ++
    BitVec.extractLsb' 8 4 w ++ 0#1 : BitVec (1 + 1 + 6 + 4 + 1)) i = _
  simp only [BitVec.getLsbD_append, BitVec.getLsbD_extractLsb']
  repeat' split
  all_goals first
    | omega
    | simp only [BitVec.getLsbD_zero]
    | (simp (disch := omega) only [decide_eq_true, Bool.true_and]; congr 1; omega)

theorem fieldJ_getLsbD (w : Word) (i : Nat) (hi : i < 21) :
    (fieldJ w).getLsbD i =
      if i < 1 then false else if i < 11 then w.getLsbD (20 + i) else if i < 12 then w.getLsbD 20
      else if i < 20 then w.getLsbD i else w.getLsbD 31 := by
  show BitVec.getLsbD (BitVec.extractLsb' 31 1 w ++ BitVec.extractLsb' 12 8 w ++ BitVec.extractLsb' 20 1 w ++
    BitVec.extractLsb' 21 10 w ++ 0#1 : BitVec (1 + 8 + 1 + 10 + 1)) i = _
  simp only [BitVec.getLsbD_append, BitVec.getLsbD_extractLsb']
  repeat' split
  all_goals first
    | omega
    | simp only [BitVec.getLsbD_zero]
    | (simp (disch := omega) only [decide_eq_true, Bool.true_and]; congr 1; omega)

theorem evenOffset_fieldB (w : Word) : evenOffset (fieldB w) = true := by
  rw [evenOffset, fieldB_getLsbD w 0 (by omega)]; rfl

theorem evenOffset_fieldJ (w : Word) : evenOffset (fieldJ w) = true := by
  rw [evenOffset, fieldJ_getLsbD w 0 (by omega)]; rfl

theorem encodeS_fields (w : Word) : encodeS (fieldS w) (rs2Of w) (rs1Of w) (funct3Of w) (majorOf w) = w := by
  apply BitVec.eq_of_getLsbD_eq
  intro i hi
  rw [encodeS_getLsbD _ _ _ _ _ _ hi]
  simp only [rs2Of, rs1Of, funct3Of, majorOf, BitVec.getLsbD_extractLsb']
  repeat' split
  all_goals first
    | (simp (disch := omega) only [decide_eq_true, Bool.true_and]; congr 1; omega)
    | (rw [fieldS_getLsbD _ _ (by omega)]; simp (disch := omega) only [if_pos, if_neg]; congr 1; omega)

theorem encodeB_fields (w : Word) : encodeB (fieldB w) (rs2Of w) (rs1Of w) (funct3Of w) (majorOf w) = w := by
  apply BitVec.eq_of_getLsbD_eq
  intro i hi
  rw [encodeB_getLsbD _ _ _ _ _ _ hi]
  simp only [rs2Of, rs1Of, funct3Of, majorOf, BitVec.getLsbD_extractLsb']
  repeat' split
  all_goals first
    | (simp (disch := omega) only [decide_eq_true, Bool.true_and]; congr 1; omega)
    | (rw [fieldB_getLsbD _ _ (by omega)]; simp (disch := omega) only [if_pos, if_neg]; congr 1; omega)

theorem encodeU_fields (w : Word) : encodeU (fieldU w) (rdOf w) (majorOf w) = w := by
  apply BitVec.eq_of_getLsbD_eq
  intro i hi
  rw [encodeU_getLsbD]
  simp only [fieldU, rdOf, majorOf, BitVec.getLsbD_extractLsb']
  split
  · simp (disch := omega) only [decide_eq_true, Bool.true_and, Nat.zero_add]
  · split
    · simp (disch := omega) only [decide_eq_true, Bool.true_and]; congr 1; omega
    · simp (disch := omega) only [decide_eq_true, Bool.true_and]; congr 1; omega

theorem encodeJ_fields (w : Word) : encodeJ (fieldJ w) (rdOf w) (majorOf w) = w := by
  apply BitVec.eq_of_getLsbD_eq
  intro i hi
  rw [encodeJ_getLsbD _ _ _ _ hi]
  simp only [rdOf, majorOf, BitVec.getLsbD_extractLsb']
  repeat' split
  all_goals first
    | (simp (disch := omega) only [decide_eq_true, Bool.true_and]; congr 1; omega)
    | (rw [fieldJ_getLsbD _ _ (by omega)]; simp (disch := omega) only [if_pos, if_neg]; congr 1; omega)
    | (rw [fieldJ_getLsbD _ _ (by omega)]; simp (disch := omega) only [if_pos, if_neg])

/-! ### The bits of an extended field (R12) -/

theorem sext32_getLsbD {n : Nat} (v : BitVec n) (k : Nat) (hk : k < 32) :
    (sext32 v).getLsbD k = if k < n then v.getLsbD k else v.getLsbD (n - 1) := by
  rw [sext32, BitVec.getLsbD_signExtend]
  simp [hk, BitVec.msb_eq_getLsbD_last]

end Sys2Proof
end

