-- ==== Sys2Proof/Laws/Decoding.lean ====
section
/-! SUPPORT. From the fields of a word to its instruction's word: each format rebuilt from the fields that select an
instruction (R74 to R79), and the match and mask of an instruction as conditions on those fields. -/

namespace Sys2Proof

/-! ### Formats rebuilt when the selecting fields are known -/

theorem majorOf_of_group {w : Word} {o : BitVec 5} (hl : lowBitsOf w = 0b11#2) (ho : opcodeOf w = o) :
    majorOf w = (o ++ 0b11#2 : BitVec (5 + 2)) := by
  rw [majorOf_eq, hl, ho]

theorem funct7Of_eq_slice (w : Word) : funct7Of w = (funct10Of w).extractLsb' 3 7 := by
  apply BitVec.eq_of_getLsbD_eq
  intro i hi
  show _ = BitVec.getLsbD (BitVec.extractLsb' 3 7 (funct7Of w ++ funct3Of w : BitVec (7 + 3))) i
  simp only [BitVec.getLsbD_extractLsb', BitVec.getLsbD_append]
  simp [hi]

theorem funct3Of_eq_slice (w : Word) : funct3Of w = (funct10Of w).extractLsb' 0 3 := by
  apply BitVec.eq_of_getLsbD_eq
  intro i hi
  show _ = BitVec.getLsbD (BitVec.extractLsb' 0 3 (funct7Of w ++ funct3Of w : BitVec (7 + 3))) i
  simp only [BitVec.getLsbD_extractLsb', BitVec.getLsbD_append]
  simp [hi]

theorem encodeR_of_funct10 {w : Word} {m : BitVec 7} {k : BitVec 10} (hm : majorOf w = m) (hk : funct10Of w = k) :
    encodeR (k.extractLsb' 3 7) (rs2Of w) (rs1Of w) (k.extractLsb' 0 3) (rdOf w) m = w := by
  subst hm hk
  rw [← funct7Of_eq_slice, ← funct3Of_eq_slice]
  exact encodeR_fields w

theorem encodeI_of_funct3 {w : Word} {f3 : BitVec 3} {m : BitVec 7} (hm : majorOf w = m) (h3 : funct3Of w = f3) :
    encodeI (fieldI w) (rs1Of w) f3 (rdOf w) m = w := by
  subst hm h3; exact encodeI_fields w

theorem encodeS_of_funct3 {w : Word} {f3 : BitVec 3} {m : BitVec 7} (hm : majorOf w = m) (h3 : funct3Of w = f3) :
    encodeS (fieldS w) (rs2Of w) (rs1Of w) f3 m = w := by
  subst hm h3; exact encodeS_fields w

theorem encodeB_of_funct3 {w : Word} {f3 : BitVec 3} {m : BitVec 7} (hm : majorOf w = m) (h3 : funct3Of w = f3) :
    encodeB (fieldB w) (rs2Of w) (rs1Of w) f3 m = w := by
  subst hm h3; exact encodeB_fields w

/-- The three fields FENCE keeps of its immediate make up the immediate (R79). -/
theorem fenceFields (w : Word) :
    (w.extractLsb' 28 4 ++ w.extractLsb' 24 4 ++ w.extractLsb' 20 4 : BitVec (4 + 4 + 4)) = fieldI w := by
  apply BitVec.eq_of_getLsbD_eq
  intro i hi
  simp only [BitVec.getLsbD_append, fieldI, BitVec.getLsbD_extractLsb']
  repeat' split
  all_goals (simp (disch := omega) only [decide_eq_true, Bool.true_and])
  all_goals (congr 1; omega)

/-! ### The table of the OP group -/

theorem lookupKey_mem {n : Nat} {α : Type} {k : BitVec n} {t : List (BitVec n × α)} {a : α}
    (h : lookupKey k t = some a) : (k, a) ∈ t := by
  induction t with
  | nil => cases h
  | cons c t ih =>
    obtain ⟨j, b⟩ := c
    simp only [lookupKey] at h
    split at h
    · cases h; subst_vars; simp
    · exact List.mem_cons_of_mem _ (ih h)

/-- Each row of the table is the R format with that funct10. -/
theorem opTable_rows : ∀ row ∈ opTable, ∀ rd rs1 rs2 : RegIdx,
    encode (row.2 rd rs1 rs2) =
      encodeR (row.1.extractLsb' 3 7) rs2 rs1 (row.1.extractLsb' 0 3) rd 0b0110011#7 ∧
    wellFormed (row.2 rd rs1 rs2) = true := by
  unfold opTable
  simp only [List.cons_append, List.nil_append, List.forall_mem_cons, encode, wellFormed, and_true]
  simp

/-! ### Masks -/

theorem majorOf_encodeR (f7 : BitVec 7) (r2 r1 : RegIdx) (f3 : BitVec 3) (rd : RegIdx) (op : BitVec 7) :
    majorOf (encodeR f7 r2 r1 f3 rd op) = op :=
  slice_eq fun i hi => by simp (disch := omega) only [encodeR_getLsbD, if_pos, Nat.zero_add]

theorem majorOf_encodeI (imm : BitVec 12) (r1 : RegIdx) (f3 : BitVec 3) (rd : RegIdx) (op : BitVec 7) :
    majorOf (encodeI imm r1 f3 rd op) = op :=
  slice_eq fun i hi => by simp (disch := omega) only [encodeI_getLsbD, if_pos, Nat.zero_add]

theorem majorOf_encodeU (imm : BitVec 20) (rd : RegIdx) (op : BitVec 7) : majorOf (encodeU imm rd op) = op :=
  slice_eq fun i hi => by simp (disch := omega) only [encodeU_getLsbD, if_pos, Nat.zero_add]

theorem majorOf_encodeS (imm : BitVec 12) (r2 r1 : RegIdx) (f3 : BitVec 3) (op : BitVec 7) :
    majorOf (encodeS imm r2 r1 f3 op) = op :=
  slice_eq fun i hi => by simp (disch := omega) only [encodeS_getLsbD, if_pos, Nat.zero_add]

theorem majorOf_encodeB (imm : BitVec 13) (r2 r1 : RegIdx) (f3 : BitVec 3) (op : BitVec 7) :
    majorOf (encodeB imm r2 r1 f3 op) = op :=
  slice_eq fun i hi => by simp (disch := omega) only [encodeB_getLsbD, if_pos, Nat.zero_add]

theorem majorOf_encodeJ (imm : BitVec 21) (rd : RegIdx) (op : BitVec 7) : majorOf (encodeJ imm rd op) = op :=
  slice_eq fun i hi => by simp (disch := omega) only [encodeJ_getLsbD, if_pos, Nat.zero_add]

theorem encodeR_and (f7 g7 : BitVec 7) (r2 r1 p2 p1 : RegIdx) (f3 g3 : BitVec 3) (rd pd : RegIdx) (op oq : BitVec 7) :
    encodeR f7 r2 r1 f3 rd op &&& encodeR g7 p2 p1 g3 pd oq =
      encodeR (f7 &&& g7) (r2 &&& p2) (r1 &&& p1) (f3 &&& g3) (rd &&& pd) (op &&& oq) := by
  apply BitVec.eq_of_getLsbD_eq
  intro i hi
  simp only [BitVec.getLsbD_and, encodeR_getLsbD]
  repeat' split
  all_goals rfl

theorem encodeI_and (imm jmm : BitVec 12) (r1 p1 : RegIdx) (f3 g3 : BitVec 3) (rd pd : RegIdx) (op oq : BitVec 7) :
    encodeI imm r1 f3 rd op &&& encodeI jmm p1 g3 pd oq =
      encodeI (imm &&& jmm) (r1 &&& p1) (f3 &&& g3) (rd &&& pd) (op &&& oq) := by
  apply BitVec.eq_of_getLsbD_eq
  intro i hi
  simp only [BitVec.getLsbD_and, encodeI_getLsbD]
  repeat' split
  all_goals rfl

theorem encodeU_and (imm jmm : BitVec 20) (rd pd : RegIdx) (op oq : BitVec 7) :
    encodeU imm rd op &&& encodeU jmm pd oq = encodeU (imm &&& jmm) (rd &&& pd) (op &&& oq) := by
  apply BitVec.eq_of_getLsbD_eq
  intro i hi
  simp only [BitVec.getLsbD_and, encodeU_getLsbD]
  repeat' split
  all_goals rfl

/-- The mask of an instruction that funct7, funct3 and the major field select. -/
theorem mask_funct10 (w : Word) (f7 : BitVec 7) (f3 : BitVec 3) (m : BitVec 7) :
    w &&& 0xFE00707F#32 = encodeR f7 0 0 f3 0 m ↔ funct7Of w = f7 ∧ funct3Of w = f3 ∧ majorOf w = m := by
  conv_lhs => rw [show 0xFE00707F#32 = encodeR 0x7F#7 0 0 7#3 0 0x7F#7 from rfl, ← encodeR_fields w, encodeR_and]
  have h7 : ∀ x : BitVec 7, x &&& 0x7F#7 = x := by decide
  have h3 : ∀ x : BitVec 3, x &&& 7#3 = x := by decide
  simp only [h7, h3]
  constructor
  · intro h
    have a := congrArg funct7Of h
    have b := congrArg funct3Of h
    have c := congrArg majorOf h
    simp only [funct7Of_encodeR, funct3Of_encodeR, majorOf_encodeR] at a b c
    exact ⟨a, b, c⟩
  · rintro ⟨rfl, rfl, rfl⟩
    simp

/-- The mask of an instruction that funct3 and the major field select. -/
theorem mask_funct3 (w : Word) (f3 : BitVec 3) (m : BitVec 7) :
    w &&& 0x0000707F#32 = encodeI 0 0 f3 0 m ↔ funct3Of w = f3 ∧ majorOf w = m := by
  conv_lhs => rw [show 0x0000707F#32 = encodeI 0 0 7#3 0 0x7F#7 from rfl, ← encodeI_fields w, encodeI_and]
  have h7 : ∀ x : BitVec 7, x &&& 0x7F#7 = x := by decide
  have h3 : ∀ x : BitVec 3, x &&& 7#3 = x := by decide
  simp only [h7, h3]
  constructor
  · intro h
    have b := congrArg funct3Of h
    have c := congrArg majorOf h
    simp only [funct3Of_encodeI, majorOf_encodeI] at b c
    exact ⟨b, c⟩
  · rintro ⟨rfl, rfl⟩
    simp

/-- The mask of an instruction that the major field alone selects. -/
theorem mask_major (w : Word) (m : BitVec 7) : w &&& 0x0000007F#32 = encodeU 0 0 m ↔ majorOf w = m := by
  conv_lhs => rw [show 0x0000007F#32 = encodeU 0 0 0x7F#7 from rfl, ← encodeU_fields w, encodeU_and]
  have h7 : ∀ x : BitVec 7, x &&& 0x7F#7 = x := by decide
  simp only [h7]
  constructor
  · intro h
    have c := congrArg majorOf h
    simpa only [majorOf_encodeU] using c
  · rintro rfl
    simp

end Sys2Proof
end

