-- ==== Sys2Proof/Laws/Exec.lean ====
section
/-! SUPPORT. Everything the effect stage can do, said once: `exec` always answers a next state, and that state is one of
four kinds. An invariant over all instructions is a case analysis of `Effect`. -/

namespace Sys2Proof.Machine

open Sys2Proof.Safety

/-- The next states of `exec i s`: a register written, only the pc changed, bytes stored, or a fault raised. -/
inductive Effect (i : Instr) (s : State) : State → Prop where
  | writes (rd : RegIdx) (v : Word) (hd : destination i = some rd) (hs : storeSpan s i = none)
      (ha : nextPc s i = s.pc + 4#32 ∨ alignedAddress (nextPc s i)) :
      Effect i s (setPc (writeReg s rd v) (nextPc s i))
  | goes (hd : destination i = none) (hs : storeSpan s i = none)
      (ha : nextPc s i = s.pc + 4#32 ∨ alignedAddress (nextPc s i)) :
      Effect i s (setPc s (nextPc s i))
  | stores (a : Word) (bs : List Byte) (hd : destination i = none) (hs : storeSpan s i = some (a, bs.length))
      (hm : allMapped s a bs.length) (hn : nextPc s i = s.pc + 4#32) :
      Effect i s (setPc (writeBytes s a bs) (s.pc + 4#32))
  | raises (r : FaultRecord) (hr : recordOk r = true) (hp : r.pc = s.pc) (hi : r.inst = some (encode i)) :
      Effect i s (raise s r)

/-- `exec i s` answers a next state, and it is one of the four kinds. -/
abbrev HasEffect (i : Instr) (s : State) (o : Result) : Prop := ∃ t, o = .next t ∧ Effect i s t

theorem writeAndAdvance_effect {i : Instr} {s : State} {rd : RegIdx} (v : Word) (hd : destination i = some rd)
    (hs : storeSpan s i = none) (hn : nextPc s i = s.pc + 4#32) : HasEffect i s (writeAndAdvance rd v s) :=
  ⟨_, rfl, hn ▸ .writes rd v hd hs (.inl hn)⟩

theorem unimplemented_effect {i : Instr} {s : State} :
    HasEffect i s (raised s (unimplementedRecord s.pc (encode i))) :=
  ⟨_, rfl, .raises _ rfl rfl rfl⟩

theorem jumpAndLink_effect {i : Instr} {s : State} {rd : RegIdx} {target : Word} (hd : destination i = some rd)
    (hs : storeSpan s i = none) (hn : nextPc s i = target) :
    HasEffect i s (jumpAndLink (encode i) rd target s) := by
  by_cases ha : alignedAddress target
  · exact ⟨_, jumpAndLink_aligned ha, hn ▸ .writes rd _ hd hs (.inr (hn ▸ ha))⟩
  · exact ⟨_, jumpAndLink_misaligned ha, .raises _ rfl rfl rfl⟩

theorem branch_effect {i : Instr} {s : State} {taken : Word → Word → Bool} {rs1 rs2 : RegIdx} {offset : BitVec 13}
    (hd : destination i = none) (hs : storeSpan s i = none)
    (hn : nextPc s i = if taken (readReg s rs1) (readReg s rs2) = true then s.pc + sext32 offset else s.pc + 4#32) :
    HasEffect i s (branch taken (encode i) rs1 rs2 offset s) := by
  cases ht : taken (readReg s rs1) (readReg s rs2) with
  | false =>
    simp only [ht, Bool.false_eq_true, if_false] at hn
    exact ⟨_, branch_notTaken ht, hn ▸ .goes hd hs (.inl hn)⟩
  | true =>
    simp only [ht, if_true] at hn
    by_cases ha : alignedAddress (s.pc + sext32 offset)
    · exact ⟨_, branch_taken ht ha, hn ▸ .goes hd hs (.inr (hn ▸ ha))⟩
    · exact ⟨_, branch_misaligned ht ha, .raises _ rfl rfl rfl⟩

theorem load_effect {i : Instr} {s : State} {bits : Nat} {extend : BitVec bits → Word} {rd rs1 : RegIdx}
    {imm : BitVec 12} (hd : destination i = some rd) (hs : storeSpan s i = none) (hn : nextPc s i = s.pc + 4#32) :
    HasEffect i s (load bits extend (encode i) rd rs1 imm s) := by
  rcases mapped_or_lowest s (readReg s rs1 + sext32 imm) (bits / 8) with h | ⟨k, h⟩
  · exact ⟨_, load_mapped h, hn ▸ .writes rd _ hd hs (.inl hn)⟩
  · exact ⟨_, load_unmapped h, .raises _ rfl rfl rfl⟩

theorem store_effect {i : Instr} {s : State} {bits : Nat} {rs1 rs2 : RegIdx} {imm : BitVec 12}
    (hd : destination i = none) (hs : storeSpan s i = some (effectiveAddress s rs1 imm, bits / 8))
    (hn : nextPc s i = s.pc + 4#32) : HasEffect i s (store bits (encode i) rs1 rs2 imm s) := by
  rcases mapped_or_lowest s (readReg s rs1 + sext32 imm) (bits / 8) with h | ⟨k, h⟩
  · exact ⟨_, store_mapped h, .stores _ _ hd (by simpa [effectiveAddress] using hs) (by simpa using h) hn⟩
  · exact ⟨_, store_unmapped h, .raises _ rfl rfl rfl⟩

/-- Everything `exec` can do. -/
theorem exec_effect (i : Instr) (s : State) : HasEffect i s (exec i s) := by
  cases i with
  | mulhsu rd rs1 rs2 => exact unimplemented_effect
  | system f rs1 g rd => exact unimplemented_effect
  | jal rd offset => exact jumpAndLink_effect rfl rfl rfl
  | jalr rd rs1 imm => exact jumpAndLink_effect rfl rfl rfl
  | beq rs1 rs2 offset => exact branch_effect rfl rfl (by simp [nextPc, equal])
  | bne rs1 rs2 offset =>
    exact branch_effect (i := .bne rs1 rs2 offset) (taken := fun a b => !equal a b) rfl rfl (by simp [nextPc, equal])
  | blt rs1 rs2 offset => exact branch_effect rfl rfl (by simp [nextPc, lessSigned])
  | bge rs1 rs2 offset =>
    exact branch_effect (i := .bge rs1 rs2 offset) (taken := fun a b => !lessSigned a b) rfl rfl (by simp [nextPc, lessSigned])
  | bltu rs1 rs2 offset => exact branch_effect rfl rfl (by simp [nextPc, lessUnsigned])
  | bgeu rs1 rs2 offset =>
    exact branch_effect (i := .bgeu rs1 rs2 offset) (taken := fun a b => !lessUnsigned a b) rfl rfl (by simp [nextPc, lessUnsigned])
  | lb rd rs1 imm => exact load_effect rfl rfl rfl
  | lh rd rs1 imm => exact load_effect rfl rfl rfl
  | lw rd rs1 imm => exact load_effect rfl rfl rfl
  | lbu rd rs1 imm => exact load_effect rfl rfl rfl
  | lhu rd rs1 imm => exact load_effect rfl rfl rfl
  | sb rs1 rs2 imm => exact store_effect rfl rfl rfl
  | sh rs1 rs2 imm => exact store_effect rfl rfl rfl
  | sw rs1 rs2 imm => exact store_effect rfl rfl rfl
  | fence fm pred succ rs1 rd => exact ⟨_, rfl, .goes rfl rfl (.inl rfl)⟩
  | _ => exact writeAndAdvance_effect _ rfl rfl rfl

/-- The form callers use: what a next state of `exec` is. -/
theorem effect_of_exec {i : Instr} {s t : State} (h : exec i s = .next t) : Effect i s t := by
  obtain ⟨u, hu, he⟩ := exec_effect i s
  rw [h] at hu
  cases hu
  exact he

end Sys2Proof.Machine
end

