-- ==== Sys2Proof/Laws/PerInstr.lean ====
section
/-! SUPPORT. A family of statements about every instruction as syntax: its word has the low bits of R61 and the opcode of
its group (R74). -/

namespace Sys2Proof.Laws.Encoded

/-- The opcode of an instruction's group (R74). -/
def group : Instr → BitVec 5
  | .add _ _ _ => 0b01100#5
  | .sub _ _ _ => 0b01100#5
  | .sll _ _ _ => 0b01100#5
  | .slt _ _ _ => 0b01100#5
  | .sltu _ _ _ => 0b01100#5
  | .xor _ _ _ => 0b01100#5
  | .srl _ _ _ => 0b01100#5
  | .sra _ _ _ => 0b01100#5
  | .or _ _ _ => 0b01100#5
  | .and _ _ _ => 0b01100#5
  | .addi _ _ _ => 0b00100#5
  | .slti _ _ _ => 0b00100#5
  | .sltiu _ _ _ => 0b00100#5
  | .xori _ _ _ => 0b00100#5
  | .ori _ _ _ => 0b00100#5
  | .andi _ _ _ => 0b00100#5
  | .slli _ _ _ => 0b00100#5
  | .srli _ _ _ => 0b00100#5
  | .srai _ _ _ => 0b00100#5
  | .mul _ _ _ => 0b01100#5
  | .mulh _ _ _ => 0b01100#5
  | .mulhsu _ _ _ => 0b01100#5
  | .mulhu _ _ _ => 0b01100#5
  | .div _ _ _ => 0b01100#5
  | .divu _ _ _ => 0b01100#5
  | .rem _ _ _ => 0b01100#5
  | .remu _ _ _ => 0b01100#5
  | .lui _ _ => 0b01101#5
  | .auipc _ _ => 0b00101#5
  | .jal _ _ => 0b11011#5
  | .jalr _ _ _ => 0b11001#5
  | .beq _ _ _ => 0b11000#5
  | .bne _ _ _ => 0b11000#5
  | .blt _ _ _ => 0b11000#5
  | .bge _ _ _ => 0b11000#5
  | .bltu _ _ _ => 0b11000#5
  | .bgeu _ _ _ => 0b11000#5
  | .lb _ _ _ => 0b00000#5
  | .lh _ _ _ => 0b00000#5
  | .lw _ _ _ => 0b00000#5
  | .lbu _ _ _ => 0b00000#5
  | .lhu _ _ _ => 0b00000#5
  | .sb _ _ _ => 0b01000#5
  | .sh _ _ _ => 0b01000#5
  | .sw _ _ _ => 0b01000#5
  | .fence _ _ _ _ _ => 0b00011#5
  | .system _ _ _ _ => 0b11100#5

/-- The word of the instruction passes R61 and selects the instruction's group. -/
def Statement (i : Instr) : Prop := lowBitsOf (encode i) = 0b11#2 ∧ opcodeOf (encode i) = group i

section
variable {f7 : BitVec 7} {r2 r1 rd : RegIdx} {f3 : BitVec 3} {op : BitVec 7} {g : BitVec 5}

theorem ofR (h : op.extractLsb' 0 2 = 0b11#2) (hg : op.extractLsb' 2 5 = g) :
    lowBitsOf (encodeR f7 r2 r1 f3 rd op) = 0b11#2 ∧ opcodeOf (encodeR f7 r2 r1 f3 rd op) = g :=
  ⟨(lowBitsOf_encodeR ..).trans h, (opcodeOf_encodeR ..).trans hg⟩

theorem ofI {imm : BitVec 12} (h : op.extractLsb' 0 2 = 0b11#2) (hg : op.extractLsb' 2 5 = g) :
    lowBitsOf (encodeI imm r1 f3 rd op) = 0b11#2 ∧ opcodeOf (encodeI imm r1 f3 rd op) = g :=
  ⟨(lowBitsOf_encodeI ..).trans h, (opcodeOf_encodeI ..).trans hg⟩

theorem ofS {imm : BitVec 12} (h : op.extractLsb' 0 2 = 0b11#2) (hg : op.extractLsb' 2 5 = g) :
    lowBitsOf (encodeS imm r2 r1 f3 op) = 0b11#2 ∧ opcodeOf (encodeS imm r2 r1 f3 op) = g :=
  ⟨(lowBitsOf_encodeS ..).trans h, (opcodeOf_encodeS ..).trans hg⟩

theorem ofB {imm : BitVec 13} (h : op.extractLsb' 0 2 = 0b11#2) (hg : op.extractLsb' 2 5 = g) :
    lowBitsOf (encodeB imm r2 r1 f3 op) = 0b11#2 ∧ opcodeOf (encodeB imm r2 r1 f3 op) = g :=
  ⟨(lowBitsOf_encodeB ..).trans h, (opcodeOf_encodeB ..).trans hg⟩

theorem ofU {imm : BitVec 20} (h : op.extractLsb' 0 2 = 0b11#2) (hg : op.extractLsb' 2 5 = g) :
    lowBitsOf (encodeU imm rd op) = 0b11#2 ∧ opcodeOf (encodeU imm rd op) = g :=
  ⟨(lowBitsOf_encodeU ..).trans h, (opcodeOf_encodeU ..).trans hg⟩

theorem ofJ {imm : BitVec 21} (h : op.extractLsb' 0 2 = 0b11#2) (hg : op.extractLsb' 2 5 = g) :
    lowBitsOf (encodeJ imm rd op) = 0b11#2 ∧ opcodeOf (encodeJ imm rd op) = g :=
  ⟨(lowBitsOf_encodeJ ..).trans h, (opcodeOf_encodeJ ..).trans hg⟩
end

theorem add (rd : RegIdx) (rs1 : RegIdx) (rs2 : RegIdx) : Statement (.add rd rs1 rs2) := ofR rfl rfl
theorem sub (rd : RegIdx) (rs1 : RegIdx) (rs2 : RegIdx) : Statement (.sub rd rs1 rs2) := ofR rfl rfl
theorem sll (rd : RegIdx) (rs1 : RegIdx) (rs2 : RegIdx) : Statement (.sll rd rs1 rs2) := ofR rfl rfl
theorem slt (rd : RegIdx) (rs1 : RegIdx) (rs2 : RegIdx) : Statement (.slt rd rs1 rs2) := ofR rfl rfl
theorem sltu (rd : RegIdx) (rs1 : RegIdx) (rs2 : RegIdx) : Statement (.sltu rd rs1 rs2) := ofR rfl rfl
theorem xor (rd : RegIdx) (rs1 : RegIdx) (rs2 : RegIdx) : Statement (.xor rd rs1 rs2) := ofR rfl rfl
theorem srl (rd : RegIdx) (rs1 : RegIdx) (rs2 : RegIdx) : Statement (.srl rd rs1 rs2) := ofR rfl rfl
theorem sra (rd : RegIdx) (rs1 : RegIdx) (rs2 : RegIdx) : Statement (.sra rd rs1 rs2) := ofR rfl rfl
theorem or (rd : RegIdx) (rs1 : RegIdx) (rs2 : RegIdx) : Statement (.or rd rs1 rs2) := ofR rfl rfl
theorem and (rd : RegIdx) (rs1 : RegIdx) (rs2 : RegIdx) : Statement (.and rd rs1 rs2) := ofR rfl rfl
theorem addi (rd : RegIdx) (rs1 : RegIdx) (imm : BitVec 12) : Statement (.addi rd rs1 imm) := ofI rfl rfl
theorem slti (rd : RegIdx) (rs1 : RegIdx) (imm : BitVec 12) : Statement (.slti rd rs1 imm) := ofI rfl rfl
theorem sltiu (rd : RegIdx) (rs1 : RegIdx) (imm : BitVec 12) : Statement (.sltiu rd rs1 imm) := ofI rfl rfl
theorem xori (rd : RegIdx) (rs1 : RegIdx) (imm : BitVec 12) : Statement (.xori rd rs1 imm) := ofI rfl rfl
theorem ori (rd : RegIdx) (rs1 : RegIdx) (imm : BitVec 12) : Statement (.ori rd rs1 imm) := ofI rfl rfl
theorem andi (rd : RegIdx) (rs1 : RegIdx) (imm : BitVec 12) : Statement (.andi rd rs1 imm) := ofI rfl rfl
theorem slli (rd : RegIdx) (rs1 : RegIdx) (shamt : BitVec 5) : Statement (.slli rd rs1 shamt) := ofR rfl rfl
theorem srli (rd : RegIdx) (rs1 : RegIdx) (shamt : BitVec 5) : Statement (.srli rd rs1 shamt) := ofR rfl rfl
theorem srai (rd : RegIdx) (rs1 : RegIdx) (shamt : BitVec 5) : Statement (.srai rd rs1 shamt) := ofR rfl rfl
theorem mul (rd : RegIdx) (rs1 : RegIdx) (rs2 : RegIdx) : Statement (.mul rd rs1 rs2) := ofR rfl rfl
theorem mulh (rd : RegIdx) (rs1 : RegIdx) (rs2 : RegIdx) : Statement (.mulh rd rs1 rs2) := ofR rfl rfl
theorem mulhsu (rd : RegIdx) (rs1 : RegIdx) (rs2 : RegIdx) : Statement (.mulhsu rd rs1 rs2) := ofR rfl rfl
theorem mulhu (rd : RegIdx) (rs1 : RegIdx) (rs2 : RegIdx) : Statement (.mulhu rd rs1 rs2) := ofR rfl rfl
theorem div (rd : RegIdx) (rs1 : RegIdx) (rs2 : RegIdx) : Statement (.div rd rs1 rs2) := ofR rfl rfl
theorem divu (rd : RegIdx) (rs1 : RegIdx) (rs2 : RegIdx) : Statement (.divu rd rs1 rs2) := ofR rfl rfl
theorem rem (rd : RegIdx) (rs1 : RegIdx) (rs2 : RegIdx) : Statement (.rem rd rs1 rs2) := ofR rfl rfl
theorem remu (rd : RegIdx) (rs1 : RegIdx) (rs2 : RegIdx) : Statement (.remu rd rs1 rs2) := ofR rfl rfl
theorem lui (rd : RegIdx) (imm : BitVec 20) : Statement (.lui rd imm) := ofU rfl rfl
theorem auipc (rd : RegIdx) (imm : BitVec 20) : Statement (.auipc rd imm) := ofU rfl rfl
theorem jal (rd : RegIdx) (offset : BitVec 21) : Statement (.jal rd offset) := ofJ rfl rfl
theorem jalr (rd : RegIdx) (rs1 : RegIdx) (imm : BitVec 12) : Statement (.jalr rd rs1 imm) := ofI rfl rfl
theorem beq (rs1 : RegIdx) (rs2 : RegIdx) (offset : BitVec 13) : Statement (.beq rs1 rs2 offset) := ofB rfl rfl
theorem bne (rs1 : RegIdx) (rs2 : RegIdx) (offset : BitVec 13) : Statement (.bne rs1 rs2 offset) := ofB rfl rfl
theorem blt (rs1 : RegIdx) (rs2 : RegIdx) (offset : BitVec 13) : Statement (.blt rs1 rs2 offset) := ofB rfl rfl
theorem bge (rs1 : RegIdx) (rs2 : RegIdx) (offset : BitVec 13) : Statement (.bge rs1 rs2 offset) := ofB rfl rfl
theorem bltu (rs1 : RegIdx) (rs2 : RegIdx) (offset : BitVec 13) : Statement (.bltu rs1 rs2 offset) := ofB rfl rfl
theorem bgeu (rs1 : RegIdx) (rs2 : RegIdx) (offset : BitVec 13) : Statement (.bgeu rs1 rs2 offset) := ofB rfl rfl
theorem lb (rd : RegIdx) (rs1 : RegIdx) (imm : BitVec 12) : Statement (.lb rd rs1 imm) := ofI rfl rfl
theorem lh (rd : RegIdx) (rs1 : RegIdx) (imm : BitVec 12) : Statement (.lh rd rs1 imm) := ofI rfl rfl
theorem lw (rd : RegIdx) (rs1 : RegIdx) (imm : BitVec 12) : Statement (.lw rd rs1 imm) := ofI rfl rfl
theorem lbu (rd : RegIdx) (rs1 : RegIdx) (imm : BitVec 12) : Statement (.lbu rd rs1 imm) := ofI rfl rfl
theorem lhu (rd : RegIdx) (rs1 : RegIdx) (imm : BitVec 12) : Statement (.lhu rd rs1 imm) := ofI rfl rfl
theorem sb (rs1 : RegIdx) (rs2 : RegIdx) (imm : BitVec 12) : Statement (.sb rs1 rs2 imm) := ofS rfl rfl
theorem sh (rs1 : RegIdx) (rs2 : RegIdx) (imm : BitVec 12) : Statement (.sh rs1 rs2 imm) := ofS rfl rfl
theorem sw (rs1 : RegIdx) (rs2 : RegIdx) (imm : BitVec 12) : Statement (.sw rs1 rs2 imm) := ofS rfl rfl
theorem fence (fm : BitVec 4) (pred : BitVec 4) (succ : BitVec 4) (rs1 : RegIdx) (rd : RegIdx) : Statement (.fence fm pred succ rs1 rd) := ofI rfl rfl
theorem system (funct12 : BitVec 12) (rs1 : RegIdx) (funct3 : BitVec 3) (rd : RegIdx) : Statement (.system funct12 rs1 funct3 rd) := ofI rfl rfl

end Sys2Proof.Laws.Encoded
end

