-- ==== Sys2Proof/Tests/Slice0.lean ====
section
/-! SUPPORT. The model's own tests: the WellFormed smoke test, decoding, single steps, and a witness for every hypothesis
of a statement. Expected results come from spec/95_test_vectors.md, whose section a test names, from the field layout of
R60, or from a calculation its comment gives; none is the model's own answer. -/

namespace Sys2Proof.Tests

open Sys2Proof.Machine Sys2Proof.Safety Sys2Proof.Claims

/-! ### Helpers -/

/-- The reset state with these ROUTES, and registers and bytes set. -/
def startOn (routes : List Route) (regs : List (RegIdx × Word)) (bytes : List (Word × Byte)) : State :=
  bytes.foldl (fun s p => writeByte s p.1 p.2)
    (regs.foldl (fun s p => writeReg s p.1 p.2) { State.reset with routes := routes })

/-- The same over every address. -/
def start (regs : List (RegIdx × Word)) (bytes : List (Word × Byte)) : State := startOn fullRoutes regs bytes

/-- The "bounded" ROUTES of spec/95_test_vectors.md. -/
def bounded : List Route := [⟨0x00001000#32, 0x00001FFF#32, 0⟩]

/-- Two ranges over one store: address 0x10000 + k leads to the byte of address k (R41). -/
def twice : List Route := [⟨0x00000000#32, 0x0000FFFF#32, 0⟩, ⟨0x00010000#32, 0x0001FFFF#32, 0⟩]

/-- One step on a word placed at the pc. -/
def runs (w : Word) (s : State) : Result := step (s.withFetchWord 32 w.toNat)

/-- The step goes on, with `v` in `rd`, at `pc`. -/
def gives (o : Result) (rd : RegIdx) (v pc : Word) : Bool :=
  match o with
  | .next t => decide (readReg t rd = v) && decide (t.pc = pc) && decide (t.status = .running)
  | _ => false

/-- The step goes on at `pc`. -/
def goes (o : Result) (pc : Word) : Bool :=
  match o with
  | .next t => decide (t.pc = pc) && decide (t.status = .running)
  | _ => false

/-- The step goes on at pc 0x1004, and those bytes stand at consecutive addresses. -/
def puts (o : Result) (a : Word) (bytes : List Byte) : Bool :=
  match o with
  | .next t => decide (readBytes t a bytes.length = bytes) && decide (t.pc = 0x00001004#32) && decide (t.status = .running)
  | _ => false

/-- The step raises a fault with this record, and the pc stays at the record's. -/
def stops (o : Result) (r : FaultRecord) : Bool :=
  match o with
  | .next t => decide (t.status = .faulted r) && decide (t.pc = r.pc)
  | _ => false

/-- The step goes on to exactly this state. -/
def isNext (o : Result) (t : State) : Bool :=
  match o with
  | .next u => decide (u = t)
  | _ => false

/-- The record of UnimplementedInstruction at pc 0x1000 (R264). -/
def unimplementedAt (w : Word) : FaultRecord := ⟨.unimplementedInstruction, 2, 0x00001000#32, some w, none, none⟩

/-! ### WellFormed: an ill-formed term for each check -/

theorem test_wellFormed_refuses_odd_branch_offsets :
    wellFormed (.beq 1 2 3) = false ∧ wellFormed (.bne 1 2 5) = false ∧ wellFormed (.blt 1 2 7) = false ∧
    wellFormed (.bge 1 2 9) = false ∧ wellFormed (.bltu 1 2 (-1)) = false ∧ wellFormed (.bgeu 1 2 4095) = false := by
  decide

theorem test_wellFormed_refuses_odd_jal_offset : wellFormed (.jal 1 1) = false ∧ wellFormed (.jal 1 (-1)) = false := by
  decide

theorem test_wellFormed_admits_even_offsets :
    wellFormed (.beq 1 2 (-4096)) = true ∧ wellFormed (.jal 1 1048574) = true ∧ wellFormed (.add 0 31 31) = true := by
  decide

/-! ### Decoding: a word for every constructor, written from its fields (R60, R74 to R79) -/

/-- funct7, rs2 = 3, rs1 = 2, funct3, rd = 1, major 0110011. -/
theorem test_decode_register_register :
    decodeWord 0b0000000_00011_00010_000_00001_0110011#32 = .ok (.add 1 2 3) ∧
    decodeWord 0b0100000_00011_00010_000_00001_0110011#32 = .ok (.sub 1 2 3) ∧
    decodeWord 0b0000000_00011_00010_001_00001_0110011#32 = .ok (.sll 1 2 3) ∧
    decodeWord 0b0000000_00011_00010_010_00001_0110011#32 = .ok (.slt 1 2 3) ∧
    decodeWord 0b0000000_00011_00010_011_00001_0110011#32 = .ok (.sltu 1 2 3) ∧
    decodeWord 0b0000000_00011_00010_100_00001_0110011#32 = .ok (.xor 1 2 3) ∧
    decodeWord 0b0000000_00011_00010_101_00001_0110011#32 = .ok (.srl 1 2 3) ∧
    decodeWord 0b0100000_00011_00010_101_00001_0110011#32 = .ok (.sra 1 2 3) ∧
    decodeWord 0b0000000_00011_00010_110_00001_0110011#32 = .ok (.or 1 2 3) ∧
    decodeWord 0b0000000_00011_00010_111_00001_0110011#32 = .ok (.and 1 2 3) := by
  decide

/-- funct7 = 0000001. -/
theorem test_decode_multiply_divide :
    decodeWord 0b0000001_00011_00010_000_00001_0110011#32 = .ok (.mul 1 2 3) ∧
    decodeWord 0b0000001_00011_00010_001_00001_0110011#32 = .ok (.mulh 1 2 3) ∧
    decodeWord 0b0000001_00011_00010_010_00001_0110011#32 = .ok (.mulhsu 1 2 3) ∧
    decodeWord 0b0000001_00011_00010_011_00001_0110011#32 = .ok (.mulhu 1 2 3) ∧
    decodeWord 0b0000001_00011_00010_100_00001_0110011#32 = .ok (.div 1 2 3) ∧
    decodeWord 0b0000001_00011_00010_101_00001_0110011#32 = .ok (.divu 1 2 3) ∧
    decodeWord 0b0000001_00011_00010_110_00001_0110011#32 = .ok (.rem 1 2 3) ∧
    decodeWord 0b0000001_00011_00010_111_00001_0110011#32 = .ok (.remu 1 2 3) := by
  decide

/-- imm_i = 0x801, rs1 = 2, funct3, rd = 1, major 0010011; the shifts with funct7 and shamt = 17. -/
theorem test_decode_register_immediate :
    decodeWord 0b100000000001_00010_000_00001_0010011#32 = .ok (.addi 1 2 0x801) ∧
    decodeWord 0b100000000001_00010_010_00001_0010011#32 = .ok (.slti 1 2 0x801) ∧
    decodeWord 0b100000000001_00010_011_00001_0010011#32 = .ok (.sltiu 1 2 0x801) ∧
    decodeWord 0b100000000001_00010_100_00001_0010011#32 = .ok (.xori 1 2 0x801) ∧
    decodeWord 0b100000000001_00010_110_00001_0010011#32 = .ok (.ori 1 2 0x801) ∧
    decodeWord 0b100000000001_00010_111_00001_0010011#32 = .ok (.andi 1 2 0x801) ∧
    decodeWord 0b0000000_10001_00010_001_00001_0010011#32 = .ok (.slli 1 2 17) ∧
    decodeWord 0b0000000_10001_00010_101_00001_0010011#32 = .ok (.srli 1 2 17) ∧
    decodeWord 0b0100000_10001_00010_101_00001_0010011#32 = .ok (.srai 1 2 17) := by
  decide

/-- U format; J format with offset bit 20, then bits 10..1, bit 11, bits 19..12; JALR in I format. -/
theorem test_decode_upper_and_jumps :
    decodeWord 0b10000000000000000001_00001_0110111#32 = .ok (.lui 1 0x80001) ∧
    decodeWord 0b10000000000000000001_00001_0010111#32 = .ok (.auipc 1 0x80001) ∧
    decodeWord 0b1_0000000000_0_00000000_00001_1101111#32 = .ok (.jal 1 (-1048576)) ∧
    decodeWord 0b0_1000000001_0_00000000_00001_1101111#32 = .ok (.jal 1 0x402) ∧
    decodeWord 0b0_0000000000_1_00000000_00001_1101111#32 = .ok (.jal 1 0x800) ∧
    decodeWord 0b0_0000000000_0_10000001_00001_1101111#32 = .ok (.jal 1 0x81000) ∧
    decodeWord 0b100000000001_00010_000_00001_1100111#32 = .ok (.jalr 1 2 0x801) := by
  decide

/-- B format: offset bit 12, bits 10..5, rs2 = 3, rs1 = 2, funct3, bits 4..1, bit 11. -/
theorem test_decode_branches :
    decodeWord 0b1_000000_00011_00010_000_0000_0_1100011#32 = .ok (.beq 2 3 (-4096)) ∧
    decodeWord 0b0_100001_00011_00010_001_0000_0_1100011#32 = .ok (.bne 2 3 0x420) ∧
    decodeWord 0b0_000000_00011_00010_100_1001_0_1100011#32 = .ok (.blt 2 3 0x12) ∧
    decodeWord 0b0_000000_00011_00010_101_0000_1_1100011#32 = .ok (.bge 2 3 0x800) ∧
    decodeWord 0b1_111111_00011_00010_110_1111_1_1100011#32 = .ok (.bltu 2 3 (-2)) ∧
    decodeWord 0b0_000000_00011_00010_111_0100_0_1100011#32 = .ok (.bgeu 2 3 8) := by
  decide

/-- Loads in I format, major 0000011; stores in S format, imm bits 11..5 above and 4..0 below, major 0100011. -/
theorem test_decode_loads_and_stores :
    decodeWord 0b100000000001_00010_000_00001_0000011#32 = .ok (.lb 1 2 0x801) ∧
    decodeWord 0b100000000001_00010_001_00001_0000011#32 = .ok (.lh 1 2 0x801) ∧
    decodeWord 0b100000000001_00010_010_00001_0000011#32 = .ok (.lw 1 2 0x801) ∧
    decodeWord 0b100000000001_00010_100_00001_0000011#32 = .ok (.lbu 1 2 0x801) ∧
    decodeWord 0b100000000001_00010_101_00001_0000011#32 = .ok (.lhu 1 2 0x801) ∧
    decodeWord 0b1000001_00011_00010_000_10001_0100011#32 = .ok (.sb 2 3 0x831) ∧
    decodeWord 0b1000001_00011_00010_001_10001_0100011#32 = .ok (.sh 2 3 0x831) ∧
    decodeWord 0b1000001_00011_00010_010_10001_0100011#32 = .ok (.sw 2 3 0x831) := by
  decide

/-- FENCE keeps fm, pred, succ, rs1 and rd; every word of the SYSTEM group decodes, CSR forms among them. -/
theorem test_decode_fence_and_system :
    decodeWord 0b1000_0100_0010_00101_000_00110_0001111#32 = .ok (.fence 8 4 2 5 6) ∧
    decodeWord 0b000000000001_00000_000_00000_1110011#32 = .ok (.system 1 0 0 0) ∧
    decodeWord 0b110000000000_00000_010_00001_1110011#32 = .ok (.system 0xC00 0 2 1) := by
  decide

/-- Words that select nothing, by the name of the condition (R61, R74 to R80; spec/95_test_vectors.md section 10). -/
theorem test_decode_rejects_by_name :
    decodeWord 0x00000000#32 = .error .lowBits ∧ decodeWord 0x00000092#32 = .error .lowBits ∧
    decodeWord 0xFFFFFFFF#32 = .error .noGroup ∧ decodeWord 0x0000202F#32 = .error .noGroup ∧
    decodeWord 0x0000100F#32 = .error .noFunction ∧ decodeWord 0x40001033#32 = .error .noFunction ∧
    decodeWord 0x803100B3#32 = .error .noFunction ∧ decodeWord 0x40011093#32 = .error .noFunction ∧
    decodeWord 0x0020B463#32 = .error .noFunction ∧ decodeWord 0x00036283#32 = .error .noFunction ∧
    decodeWord 0x00534023#32 = .error .noFunction ∧ decodeWord 0x00029067#32 = .error .noFunction ∧
    decodeBytes [0x13#8, 0x00#8, 0x00#8] = .error .truncated := by
  decide

/-- The byte at the lowest address is the least significant (R43): `addi x1, x0, 42` and a byte after it. -/
theorem test_decode_bytes_little_endian :
    decodeBytes [0x93#8, 0x00#8, 0xA0#8, 0x02#8, 0xFF#8] = .ok (.addi 1 0 42, [0xFF#8]) ∧
    decodeTableWord 32 0x02A00093 = some (.addi 1 0 42) ∧ decodeTableWord 32 0x00000000 = none := by
  decide

/-! ### Register-register ALU (spec/95_test_vectors.md sections 1 and 3) -/

theorem test_add :
    gives (runs 0x003100B3#32 (start [(2, 0x7FFFFFFF#32), (3, 1#32)] [])) 1 0x80000000#32 0x00001004#32 = true ∧
    gives (runs 0x001080B3#32 (start [(1, 3#32)] [])) 1 6#32 0x00001004#32 = true := by decide

theorem test_sub :
    gives (runs 0x403100B3#32 (start [(2, 5#32), (3, 0x2A#32)] [])) 1 0xFFFFFFDB#32 0x00001004#32 = true ∧
    gives (runs 0x403100B3#32 (start [(2, 0x80000000#32), (3, 1#32)] [])) 1 0x7FFFFFFF#32 0x00001004#32 = true := by
  decide

theorem test_sll_masks_the_amount :
    gives (runs 0x003110B3#32 (start [(2, 1#32), (3, 0x21#32)] [])) 1 2#32 0x00001004#32 = true := by decide

theorem test_slt :
    gives (runs 0x003120B3#32 (start [(2, 0x80000000#32), (3, 0x7FFFFFFF#32)] [])) 1 1#32 0x00001004#32 = true ∧
    gives (runs 0x002120B3#32 (start [(1, 9#32), (2, 5#32)] [])) 1 0#32 0x00001004#32 = true := by decide

theorem test_sltu :
    gives (runs 0x003130B3#32 (start [(1, 9#32), (2, 0x80000000#32), (3, 0x7FFFFFFF#32)] [])) 1 0#32 0x00001004#32 = true ∧
    gives (runs 0x003030B3#32 (start [(3, 1#32)] [])) 1 1#32 0x00001004#32 = true := by decide

theorem test_xor :
    gives (runs 0x003140B3#32 (start [(2, 0xFFFFFFFF#32), (3, 0x0F0F0F0F#32)] [])) 1 0xF0F0F0F0#32 0x00001004#32 = true := by
  decide

theorem test_srl_masks_the_amount :
    gives (runs 0x003150B3#32 (start [(2, 0x80000000#32), (3, 0xFFFFFFFF#32)] [])) 1 1#32 0x00001004#32 = true := by
  decide

theorem test_sra :
    gives (runs 0x403150B3#32 (start [(2, 0x80000000#32), (3, 0x1F#32)] [])) 1 0xFFFFFFFF#32 0x00001004#32 = true ∧
    gives (runs 0x403150B3#32 (start [(2, 0x7FFFFFFF#32), (3, 0x20#32)] [])) 1 0x7FFFFFFF#32 0x00001004#32 = true := by
  decide

theorem test_or :
    gives (runs 0x003160B3#32 (start [(2, 0x12340000#32), (3, 0x5678#32)] [])) 1 0x12345678#32 0x00001004#32 = true := by
  decide

theorem test_and :
    gives (runs 0x003170B3#32 (start [(2, 0x12345678#32), (3, 0xFFFF#32)] [])) 1 0x5678#32 0x00001004#32 = true := by
  decide

/-- A write to x0 is discarded, the pc still moves on. -/
theorem test_add_to_x0_changes_only_the_pc :
    isNext (runs 0x00310033#32 (start [(2, 5#32), (3, 0x2A#32)] []))
      (setPc ((start [(2, 5#32), (3, 0x2A#32)] []).withFetchWord 32 0x00310033) 0x00001004#32) = true := by decide

/-! ### Register-immediate ALU (section 4) -/

theorem test_addi :
    gives (runs 0x80000093#32 (start [] [])) 1 0xFFFFF800#32 0x00001004#32 = true ∧
    gives (runs 0x00110093#32 (start [(2, 0xFFFFFFFF#32)] [])) 1 0#32 0x00001004#32 = true := by decide

theorem test_slti :
    gives (runs 0x80012093#32 (start [(2, 0x80000000#32)] [])) 1 1#32 0x00001004#32 = true := by decide

theorem test_sltiu_extends_first :
    gives (runs 0xFFF13093#32 (start [(2, 5#32)] [])) 1 1#32 0x00001004#32 = true ∧
    gives (runs 0x00113093#32 (start [(1, 9#32), (2, 7#32)] [])) 1 0#32 0x00001004#32 = true := by decide

theorem test_xori :
    gives (runs 0xFFF14093#32 (start [(2, 0x0000FFFF#32)] [])) 1 0xFFFF0000#32 0x00001004#32 = true := by decide

/-- imm_i = -2048 is 0xFFFFF800: OR with 0x7FF gives all ones, AND with all ones gives it back (by hand). -/
theorem test_ori :
    gives (runs 0b100000000000_00010_110_00001_0010011#32 (start [(2, 0x7FF#32)] [])) 1 0xFFFFFFFF#32 0x00001004#32 = true := by
  decide

theorem test_andi :
    gives (runs 0b100000000000_00010_111_00001_0010011#32 (start [(2, 0xFFFFFFFF#32)] [])) 1 0xFFFFF800#32 0x00001004#32 = true := by
  decide

/-- By 31 (by hand): 3 << 31 keeps one bit, 0xC0000000 >>u 31 = 1, 0x80000000 >>s 31 = -1. -/
theorem test_slli :
    gives (runs 0b0000000_11111_00010_001_00001_0010011#32 (start [(2, 3#32)] [])) 1 0x80000000#32 0x00001004#32 = true := by
  decide

theorem test_srli :
    gives (runs 0b0000000_11111_00010_101_00001_0010011#32 (start [(2, 0xC0000000#32)] [])) 1 1#32 0x00001004#32 = true := by
  decide

theorem test_srai :
    gives (runs 0b0100000_11111_00010_101_00001_0010011#32 (start [(2, 0x80000000#32)] [])) 1 0xFFFFFFFF#32 0x00001004#32 = true := by
  decide

/-! ### Multiply and divide (section 5) -/

/-- 0x10001 * 0x10001 = 0x100020001, the low word of it (by hand). -/
theorem test_mul :
    gives (runs 0x023100B3#32 (start [(2, 0x00010001#32), (3, 0x00010001#32)] [])) 1 0x00020001#32 0x00001004#32 = true := by
  decide

/-- -1 * 2 = -2, whose high word is -1; -2^31 * -2^31 = 2^62, whose high word is 2^30 (by hand). -/
theorem test_mulh :
    gives (runs 0x023110B3#32 (start [(2, 0xFFFFFFFF#32), (3, 2#32)] [])) 1 0xFFFFFFFF#32 0x00001004#32 = true ∧
    gives (runs 0x023110B3#32 (start [(2, 0x80000000#32), (3, 0x80000000#32)] [])) 1 0x40000000#32 0x00001004#32 = true := by
  decide

theorem test_mulhsu_raises :
    stops (runs 0x023120B3#32 (start [(2, 0xFFFFFFFF#32), (3, 2#32)] [])) (unimplementedAt 0x023120B3#32) = true := by
  decide

/-- (2^32 - 1)^2 = 2^64 - 2^33 + 1, whose high word is 2^32 - 2 (by hand). -/
theorem test_mulhu :
    gives (runs 0x023130B3#32 (start [(2, 0x00010000#32), (3, 0x00010000#32)] [])) 1 1#32 0x00001004#32 = true ∧
    gives (runs 0x023130B3#32 (start [(2, 0xFFFFFFFF#32), (3, 0xFFFFFFFF#32)] [])) 1 0xFFFFFFFE#32 0x00001004#32 = true := by
  decide

theorem test_div_truncates :
    gives (runs 0x023140B3#32 (start [(2, 0xFFFFFFF9#32), (3, 2#32)] [])) 1 0xFFFFFFFD#32 0x00001004#32 = true ∧
    gives (runs 0x023140B3#32 (start [(2, 7#32), (3, 0xFFFFFFFE#32)] [])) 1 0xFFFFFFFD#32 0x00001004#32 = true := by decide

theorem test_div_corners :
    gives (runs 0x023140B3#32 (start [(2, 5#32)] [])) 1 0xFFFFFFFF#32 0x00001004#32 = true ∧
    gives (runs 0x023140B3#32 (start [(2, 0x80000000#32), (3, 0xFFFFFFFF#32)] [])) 1 0x80000000#32 0x00001004#32 = true := by
  decide

theorem test_divu :
    gives (runs 0x023150B3#32 (start [(2, 0xFFFFFFFF#32), (3, 2#32)] [])) 1 0x7FFFFFFF#32 0x00001004#32 = true ∧
    gives (runs 0x023150B3#32 (start [(2, 5#32)] [])) 1 0xFFFFFFFF#32 0x00001004#32 = true := by decide

theorem test_rem_takes_the_sign_of_the_dividend :
    gives (runs 0x023160B3#32 (start [(2, 0xFFFFFFF9#32), (3, 2#32)] [])) 1 0xFFFFFFFF#32 0x00001004#32 = true ∧
    gives (runs 0x023160B3#32 (start [(2, 7#32), (3, 0xFFFFFFFE#32)] [])) 1 1#32 0x00001004#32 = true := by decide

theorem test_rem_corners :
    gives (runs 0x023160B3#32 (start [(2, 0xFFFFFFFB#32)] [])) 1 0xFFFFFFFB#32 0x00001004#32 = true ∧
    gives (runs 0x023160B3#32 (start [(1, 9#32), (2, 0x80000000#32), (3, 0xFFFFFFFF#32)] [])) 1 0#32 0x00001004#32 = true := by
  decide

theorem test_remu :
    gives (runs 0x023170B3#32 (start [(2, 0xFFFFFFFF#32), (3, 0xA#32)] [])) 1 5#32 0x00001004#32 = true ∧
    gives (runs 0x023170B3#32 (start [(2, 5#32)] [])) 1 5#32 0x00001004#32 = true := by decide

/-! ### Upper immediates and jumps (sections 1, 6 and 7) -/

theorem test_lui :
    gives (runs 0x123450B7#32 (start [(1, 0xDEADBEEF#32)] [])) 1 0x12345000#32 0x00001004#32 = true := by decide

theorem test_auipc_reads_its_own_address :
    gives (runs 0x00000097#32 (start [] [])) 1 0x00001000#32 0x00001004#32 = true ∧
    gives (runs 0x80000097#32 (setPc (start [(1, 9#32)] []) 0x80000000#32)) 1 0#32 0x80000004#32 = true := by decide

theorem test_jal :
    gives (runs 0x800000EF#32 (start [] [])) 1 0x00001004#32 0xFFF01000#32 = true ∧
    gives (runs 0x008000EF#32 (setPc (start [(1, 9#32)] []) 0xFFFFFFFC#32)) 1 0#32 0x00000004#32 = true := by decide

theorem test_jal_misaligned_writes_no_link :
    isNext (runs 0x006000EF#32 (start [(1, 9#32)] []))
      (raise ((start [(1, 9#32)] []).withFetchWord 32 0x006000EF)
        ⟨.instructionAddressMisaligned, 0, 0x00001000#32, some 0x006000EF#32, some 0x00001006#32, none⟩) = true := by
  decide

theorem test_jalr_reads_before_it_links :
    gives (runs 0x000080E7#32 (start [(1, 0x00002000#32)] [])) 1 0x00001004#32 0x00002000#32 = true ∧
    goes (runs 0xFFF28067#32 (start [(5, 0x00002001#32)] [])) 0x00002000#32 = true := by decide

theorem test_jalr_misaligned :
    stops (runs 0x000280E7#32 (start [(5, 0x00002003#32)] []))
      ⟨.instructionAddressMisaligned, 0, 0x00001000#32, some 0x000280E7#32, some 0x00002002#32, none⟩ = true := by decide

/-! ### Branches (sections 1 and 8) -/

theorem test_beq :
    goes (runs 0x80000063#32 (start [] [])) 0x00000000#32 = true ∧
    goes (runs 0x00208463#32 (start [(1, 7#32), (2, 8#32)] [])) 0x00001004#32 = true := by decide

theorem test_bne :
    goes (runs 0x7E209EE3#32 (start [(1, 1#32), (2, 2#32)] [])) 0x00001FFC#32 = true ∧
    goes (runs 0x00001363#32 (start [] [])) 0x00001004#32 = true := by decide

theorem test_bne_misaligned :
    stops (runs 0x7E209FE3#32 (start [(1, 1#32), (2, 2#32)] []))
      ⟨.instructionAddressMisaligned, 0, 0x00001000#32, some 0x7E209FE3#32, some 0x00001FFE#32, none⟩ = true := by decide

theorem test_blt :
    goes (runs 0x0020C463#32 (start [(1, 0x80000000#32), (2, 0x7FFFFFFF#32)] [])) 0x00001008#32 = true ∧
    goes (runs 0x0010C463#32 (start [(1, 5#32)] [])) 0x00001004#32 = true := by decide

theorem test_bge :
    goes (runs 0x0020D463#32 (start [(1, 5#32), (2, 5#32)] [])) 0x00001008#32 = true ∧
    goes (runs 0x0020D463#32 (start [(1, 0xFFFFFFFF#32), (2, 1#32)] [])) 0x00001004#32 = true := by decide

theorem test_bltu :
    goes (runs 0x0020E463#32 (start [(1, 1#32), (2, 0xFFFFFFFF#32)] [])) 0x00001008#32 = true ∧
    goes (runs 0x0020E463#32 (start [(1, 0x80000000#32), (2, 0x7FFFFFFF#32)] [])) 0x00001004#32 = true := by decide

theorem test_bgeu :
    goes (runs 0x0020F463#32 (start [] [])) 0x00001008#32 = true ∧
    goes (runs 0x0020F463#32 (start [(1, 1#32), (2, 0xFFFFFFFF#32)] [])) 0x00001004#32 = true := by decide

/-! ### Loads and stores (section 9) -/

/-- The bytes the load vectors start with. -/
def loadBytes : List (Word × Byte) :=
  [(0xFF#32, 0xFF#8), (0x100#32, 0x84#8), (0x101#32, 0x83#8), (0x102#32, 0x82#8), (0x103#32, 0x81#8), (0x104#32, 0x7F#8)]

theorem test_lb :
    gives (runs 0xFFF30283#32 (start [(6, 0x100#32)] loadBytes)) 5 0xFFFFFFFF#32 0x00001004#32 = true := by decide

/-- A load to x0 still faults (decision D25). -/
theorem test_lb_to_x0_still_faults :
    stops (runs 0x00030003#32 (startOn bounded [(6, 0x3000#32)] []))
      ⟨.memoryFault, 5, 0x00001000#32, some 0x00030003#32, some 0x00003000#32, some .load⟩ = true := by decide

/-- Bytes 81 7F, positive; and across the top of the address space, 34 at 0xFFFFFFFF and 12 at 0 (log entry 13). -/
theorem test_lh :
    gives (runs 0x00331283#32 (start [(6, 0x100#32)] loadBytes)) 5 0x00007F81#32 0x00001004#32 = true ∧
    gives (runs 0x00031283#32 (start [(6, 0xFFFFFFFF#32)] [(0xFFFFFFFF#32, 0x34#8), (0#32, 0x12#8)])) 5 0x00001234#32
      0x00001004#32 = true := by decide

theorem test_lw_misaligned :
    gives (runs 0x00132283#32 (start [(6, 0x100#32)] loadBytes)) 5 0x7F818283#32 0x00001004#32 = true := by decide

theorem test_lw_reports_the_lowest_unmapped_byte :
    stops (runs 0x00032283#32 (startOn bounded [(6, 0x1FFE#32)] []))
      ⟨.memoryFault, 5, 0x00001000#32, some 0x00032283#32, some 0x00002000#32, some .load⟩ = true := by decide

theorem test_lbu :
    gives (runs 0xFFF34283#32 (start [(6, 0x100#32)] loadBytes)) 5 0x000000FF#32 0x00001004#32 = true := by decide

theorem test_lhu :
    gives (runs 0x00035283#32 (start [(6, 0x100#32)] loadBytes)) 5 0x00008384#32 0x00001004#32 = true := by decide

theorem test_sb_stores_the_low_byte_only :
    puts (runs 0x005301A3#32 (start [(5, 0x81828384#32), (6, 0x100#32)] loadBytes)) 0x102#32 [0x82#8, 0x84#8, 0x7F#8] = true := by
  decide

theorem test_sh_misaligned :
    puts (runs 0x005310A3#32 (start [(5, 0x81828384#32), (6, 0x100#32)] [])) 0x100#32 [0x00#8, 0x84#8, 0x83#8, 0x00#8] = true := by
  decide

theorem test_sw_wraps :
    puts (runs 0x00532023#32 (start [(5, 0x11223344#32), (6, 0xFFFFFFFE#32)] [])) 0xFFFFFFFE#32
      [0x44#8, 0x33#8, 0x22#8, 0x11#8] = true := by decide

/-- x6 = 0x2000, two bytes AA BB at the end of a bounded memory. -/
def atTheEnd : State :=
  startOn bounded [(5, 0x81828384#32), (6, 0x2000#32)] [(0x1FFE#32, 0xAA#8), (0x1FFF#32, 0xBB#8)]

/-- No byte is written when one is unmapped: AA BB stay (decision D6). -/
theorem test_sw_unmapped_writes_nothing :
    isNext (runs 0xFE532F23#32 atTheEnd)
      (raise (atTheEnd.withFetchWord 32 0xFE532F23)
        ⟨.memoryFault, 7, 0x00001000#32, some 0xFE532F23#32, some 0x00002000#32, some .store⟩) = true := by decide

/-- A store through one range over a store shows through the other: both lead to offset 0x103 and up (by hand, R41). -/
theorem test_sw_shows_through_the_other_range :
    puts (runs 0x00532023#32 (startOn twice [(5, 0x11223344#32), (6, 0x10103#32)] [])) 0x103#32
      [0x44#8, 0x33#8, 0x22#8, 0x11#8] = true := by decide

/-- Ranges of two bytes each over one store, so that a word at 0 puts its bytes at offsets 0, 1, 0, 1: the last written
stand (by hand, R41 and R45). -/
theorem test_sw_over_shared_bytes :
    puts (runs 0x00532023#32 (startOn [⟨0#32, 1#32, 7⟩, ⟨2#32, 3#32, 7⟩, ⟨0x1000#32, 0x1FFF#32, 0⟩]
      [(5, 0x11223344#32), (6, 0#32)] [])) 0#32 [0x22#8, 0x11#8, 0x22#8, 0x11#8] = true := by decide

/-! ### Fence, SYSTEM, rejected words and the fetch (section 10) -/

theorem test_fence_ignores_its_other_bits :
    goes (runs 0x0FF0000F#32 (start [] [])) 0x00001004#32 = true ∧
    goes (runs 0xF002830F#32 (start [] [])) 0x00001004#32 = true := by decide

theorem test_system_raises :
    stops (runs 0x00000073#32 (start [] [])) (unimplementedAt 0x00000073#32) = true ∧
    stops (runs 0xC00020F3#32 (start [] [])) (unimplementedAt 0xC00020F3#32) = true := by decide

theorem test_rejected_words_raise :
    stops (runs 0x00000000#32 (start [] [])) (unimplementedAt 0x00000000#32) = true ∧
    stops (runs 0x0000100F#32 (start [] [])) (unimplementedAt 0x0000100F#32) = true := by decide

theorem test_fetch_faults :
    stops (step (setPc State.reset 0x00001002#32))
      ⟨.instructionAddressMisaligned, 0, 0x00001002#32, none, some 0x00001002#32, none⟩ = true ∧
    stops (step (setPc (startOn [⟨0x00001000#32, 0x00001FFE#32, 0⟩] [] []) 0x00001FFC#32))
      ⟨.memoryFault, 1, 0x00001FFC#32, none, some 0x00001FFF#32, some .fetch⟩ = true := by decide

theorem test_faulted_has_no_step :
    step (raise State.reset (unimplementedAt 0#32)) = .fault (.coreFaulted (unimplementedAt 0#32)) := rfl

/-- The snapshot of R277: pc, x0..x31, and the record once Faulted. -/
theorem test_snapshot :
    (snapshot (start [(31, 7#32)] [])).regs[31] = 7#32 ∧ (snapshot (start [] [])).pc = 0x00001000#32 ∧
    (snapshot (raise State.reset (unimplementedAt 0#32))).record = some (unimplementedAt 0#32) := by decide

/-! ### Witnesses: for each statement with hypotheses, states and operands that meet them, clause by clause

`goesOnAt i s` and `raisesAt i s` say that `exec i s` answers a next state that is still Running, or Faulted. -/

def goesOnAt (i : Instr) (s : State) : Bool :=
  match exec i s with
  | .next t => decide (t.status = .running)
  | _ => false

def raisesAt (i : Instr) (s : State) : Bool :=
  match exec i s with
  | .next t => decide (t.status ≠ .running)
  | _ => false

/-- RegisterZeroIsConstantOthersHoldLastWrite: i = 1 and 31 are not 0; j = 0 and 31 are not i = 1. FieldsAreTheirBitRanges:
a word with low bits 11. -/
theorem witness_registers :
    (1 : RegIdx) ≠ 0#5 ∧ (31 : RegIdx) ≠ 0#5 ∧ (0 : RegIdx) ≠ (1 : RegIdx) ∧ (31 : RegIdx) ≠ (1 : RegIdx) ∧
    (0x00000003#32 : Word).toNat % 2 ^ 2 = 3 := by decide

/-- The parameters of program P5 of spec/95_test_vectors.md section 11, cut to one word, with bytes AA BB at the end. -/
def boundedConfig : Config :=
  { Config.standard with
    routes := bounded, image := [0x93#8, 0x00#8, 0x50#8, 0x00#8], initMem := [(0x1FFE, 0xAA#8), (0x1FFF, 0xBB#8)] }

/-- The same image with ROUTES in which its last two bytes lead to the first two: offset 0 and 1 of store 3 twice. -/
def foldedConfig : Config :=
  { boundedConfig with routes := [⟨0x00001000#32, 0x00001001#32, 3⟩, ⟨0x00001002#32, 0x00001003#32, 3⟩] }

/-- InitialStateFollowsTheParameters: an image inside one range, with its bytes and a mapped byte it does not cover; and
an image whose later bytes go over its earlier ones, so that 0x1000 reads its byte 2, not its byte 0 (by hand). -/
theorem witness_initialState :
    (boundedConfig.image.length ≤ 2 ^ 32 ∧
      (∀ k < boundedConfig.image.length, isMapped boundedConfig.routes (boundedConfig.imageBase + BitVec.ofNat 32 k) = true) ∧
      (boundedConfig.routes.map Route.store).Nodup ∧ readByte (boot boundedConfig) 0x1002#32 = 0x50#8 ∧
      isMapped boundedConfig.routes 0x1FFE#32 = true ∧
      (∀ k < boundedConfig.image.length,
        sharesByte boundedConfig.routes (boundedConfig.imageBase + BitVec.ofNat 32 k) 0x1FFE#32 = false) ∧
      readByte (boot boundedConfig) 0x1FFE#32 = 0xAA#8) ∧
    (foldedConfig.image.length ≤ 2 ^ 32 ∧
      (∀ k < foldedConfig.image.length, isMapped foldedConfig.routes (foldedConfig.imageBase + BitVec.ofNat 32 k) = true) ∧
      sharesByte foldedConfig.routes (foldedConfig.imageBase + BitVec.ofNat 32 2) 0x1000#32 = true ∧
      (∀ j < foldedConfig.image.length, 2 < j →
        sharesByte foldedConfig.routes (foldedConfig.imageBase + BitVec.ofNat 32 j) 0x1000#32 = false) ∧
      readByte (boot foldedConfig) 0x1000#32 = 0x50#8) ∧
    (31 : RegIdx) ≠ 0#5 := by decide

/-- RoutingTakesTheFirstRangeThatHolds: an address that only the second of three ranges holds, at its last byte; a
bounded RAM at the top of the address space, and one over all of it. -/
theorem witness_routing :
    (∀ q ∈ [(⟨0#32, 0xFFF#32, 0⟩ : Route)], ¬ (q.first.toNat ≤ (0x1FFF#32).toNat ∧ (0x1FFF#32).toNat ≤ q.last.toNat)) ∧
    (0x1000#32).toNat ≤ (0x1FFF#32).toNat ∧
    routeOf ([⟨0#32, 0xFFF#32, 0⟩] ++ ⟨0x1000#32, 0x1FFF#32, 1⟩ :: [⟨0x1800#32, 0x2FFF#32, 2⟩]) 0x1FFF#32 = some (1, 0xFFF#32) ∧
    (0 < 16 ∧ (0xFFFFFFF0#32).toNat + 16 ≤ 2 ^ 32) ∧ (0 < 2 ^ 32 ∧ (0#32).toNat + 2 ^ 32 ≤ 2 ^ 32) := by decide

/-- Two stores that split the address space at its middle. -/
def splitRoutes : List Route := [⟨0x00000000#32, 0x7FFFFFFF#32, 0⟩, ⟨0x80000000#32, 0xFFFFFFFF#32, 1⟩]

/-- RangesOverOneStoreShareItsBytes: addresses at both ends of two ranges over one store; two that differ in the offset,
two that differ in the store; and two stores, where an address shares its byte with itself alone. -/
theorem witness_sharing :
    (routeOf twice 0x0000FFFF#32 = some (0, 0xFFFF#32) ∧ routeOf twice 0x0001FFFF#32 = some (0, 0xFFFF#32)) ∧
    sharesByte twice 0x0000FFFF#32 0x0001FFFF#32 = true ∧ sharesByte twice 0#32 0x00010000#32 = true ∧
    sharesByte twice 0#32 0x00010001#32 = false ∧ sharesByte splitRoutes 0#32 0x80000000#32 = false ∧
    (splitRoutes.map Route.store).Nodup ∧ sharesByte splitRoutes 0x80000000#32 0x80000000#32 = true := by decide

theorem splitRoutes_mapped (a : Word) : isMapped splitRoutes a = isMapped fullRoutes a := by
  have ha := a.isLt
  simp only [isMapped, splitRoutes, fullRoutes, routeOf, routeHolds, BitVec.le_def, BitVec.toNat_ofNat]
  rcases Nat.lt_or_ge a.toNat 0x80000000 with h | h <;>
    simp (disch := omega) only [decide_eq_true, decide_eq_false, Nat.reduceMod, Nat.reducePow, Nat.zero_le,
      decide_true, Bool.and_true, Bool.and_false, if_true, Bool.false_eq_true, if_false, Option.isSome_some]

/-- The reset state and one over two stores show the same combined map: each address has a byte of its own in both. -/
theorem splitRoutes_shows_the_same (s : State) (hr : s.routes = fullRoutes) (hm : s.mem = []) :
    sameCombinedMap s { s with routes := splitRoutes } := by
  have alone : ∀ {routes : List Route} {a b : Word}, (routes.map Route.store).Nodup →
      (sharesByte routes a b = true ↔ a = b ∧ isMapped routes a = true) := fun hs =>
    ⟨fun h => ⟨sharesByte_eq hs h, (sharesByte_mapped h).1⟩, fun ⟨e, h⟩ => by rw [← e, sharesByte_self]; exact h⟩
  refine ⟨fun _ => rfl, rfl, rfl, fun a => ?_, fun a => ?_, fun a b => Bool.eq_iff_iff.2 ?_⟩
  · rw [readByte_empty hm, readByte_empty (s := { s with routes := splitRoutes }) hm]
  · rw [hr]; exact splitRoutes_mapped a
  · rw [hr, alone (routes := splitRoutes) (by decide), alone (routes := fullRoutes) (by decide), splitRoutes_mapped]

/-- StepSeesOnlyTheCombinedMap: with a step that has a next state, and one that has none. -/
theorem witness_combinedMap :
    (sameCombinedMap State.reset { State.reset with routes := splitRoutes } ∧ ∃ t, step State.reset = .next t) ∧
    (sameCombinedMap (raise State.reset (unimplementedAt 0#32))
      { raise State.reset (unimplementedAt 0#32) with routes := splitRoutes } ∧
      ∃ f, step (raise State.reset (unimplementedAt 0#32)) = .fault f) :=
  ⟨⟨splitRoutes_shows_the_same _ rfl rfl, _, rfl⟩, splitRoutes_shows_the_same _ rfl rfl, _, rfl⟩

/-- Four ranges of one byte each, over one store two by two, and one more. -/
def fourBytes : List Route := [⟨0#32, 0#32, 1⟩, ⟨1#32, 1#32, 2⟩, ⟨2#32, 2#32, 1⟩, ⟨3#32, 3#32, 2⟩, ⟨4#32, 0xFF#32, 3⟩]

/-- MemReadComposesBytesLittleEndian, MemWriteChecksEveryByteThenWritesLittleEndian: each width mapped across the top of
the address space, and with its first or last byte unmapped. -/
theorem witness_memoryAccess :
    allMapped State.reset 0xFFFFFFFF#32 1 ∧ allMapped State.reset 0xFFFFFFFF#32 2 ∧ allMapped State.reset 0xFFFFFFFD#32 4 ∧
    lowestUnmapped atTheEnd 0x2000#32 1 0 ∧ lowestUnmapped atTheEnd 0x1FFF#32 2 1 ∧ lowestUnmapped atTheEnd 0x1FFD#32 4 3 ∧
    lowestUnmapped atTheEnd 0x0FFE#32 4 0 := by decide

/-- MemWriteChecksEveryByteThenWritesLittleEndian, StoresWriteTheLowBytesAndNoOther: a word at 0 in ranges where its bytes 0
and 2 lead to one byte, of which byte 2 is the last; and a halfword at 1 with an address outside its bytes. -/
theorem witness_bytesWritten :
    allMapped (startOn fourBytes [] []) 1#32 2 ∧ allMapped (startOn fourBytes [] []) 0#32 4 ∧
    (sharesByte fourBytes (0#32 + BitVec.ofNat 32 2) 0#32 = true ∧
      (∀ j < 4, 2 < j → sharesByte fourBytes (0#32 + BitVec.ofNat 32 j) 0#32 = false)) ∧
    (∀ k < 2, sharesByte fourBytes (1#32 + BitVec.ofNat 32 k) 4#32 = false) := by decide

/-- WordRoundTripAtEveryWidth: a misaligned word across the top of the address space, and one in the second of two ranges
over one store. -/
theorem witness_wordRoundTrip :
    (allMapped State.reset 0xFFFFFFFD#32 4 ∧ distinctBytes State.reset 0xFFFFFFFD#32 4) ∧
    (allMapped (startOn twice [] []) 0x0001FFFC#32 4 ∧ distinctBytes (startOn twice [] []) 0x0001FFFC#32 4) := by decide

/-- ByteWriteKeepsTheCanonicalForm: a memory with two entries, at offsets 0xFFE and 0xFFF of the store; a mapped address;
two addresses that lead to one byte. -/
theorem witness_canonicalForm :
    (atTheEnd.mem.wf = true ∧ atTheEnd.mem = [(0xFFE, 0xAA#8), (0xFFF, 0xBB#8)] ∧ isMapped atTheEnd.routes 0x1FFE#32 = true) ∧
    ((startOn twice [] [(3#32, 0xAA#8)]).mem.wf = true ∧ sharesByte twice 3#32 0x00010003#32 = true) := by decide

/-- DecodeOfEncodeIsTheInstruction, EncodeOfDecodeIsTheWord: the smallest branch offset and the largest JAL offset. -/
theorem witness_encoding :
    wellFormed (.beq 31 31 (-4096)) = true ∧ wellFormed (.jal 31 1048574) = true ∧
    decodeWord 0x80000063#32 = .ok (.beq 0 0 (-4096)) ∧ decodeWord 0x7FFFF0EF#32 = .ok (.jal 1 1048574) := by decide

/-- `addi x1, x0, 42` at the reset pc. -/
def atAddi : State := State.reset.withFetchWord 32 0x02A00093

/-- StepRunsTheDecodedInstruction. -/
theorem witness_stepRuns :
    atAddi.status = .running ∧ alignedAddress atAddi.pc ∧ allMapped atAddi atAddi.pc 4 ∧
    decodeWord (readByte atAddi (atAddi.pc + 3#32) ++ readByte atAddi (atAddi.pc + 2#32) ++ readByte atAddi (atAddi.pc + 1#32) ++
      readByte atAddi atAddi.pc) = .ok (.addi 1 0 42) := by decide

/-- The conditions of R80 one by one, a word for each: low bits, opcode, OP, OP-IMM (two), BRANCH, LOAD, STORE, JALR,
MISC-MEM, SYSTEM, MULHSU. -/
theorem witness_conditionsOfR80 :
    conditionsOfR80 0x00000092#32 ∧ conditionsOfR80 0x0000202F#32 ∧ conditionsOfR80 0x40001033#32 ∧
    conditionsOfR80 0x40001013#32 ∧ conditionsOfR80 0x02005013#32 ∧ conditionsOfR80 0x0020B463#32 ∧
    conditionsOfR80 0x00036283#32 ∧ conditionsOfR80 0x00534023#32 ∧ conditionsOfR80 0x00029067#32 ∧
    conditionsOfR80 0x0000100F#32 ∧ conditionsOfR80 0x00000073#32 ∧ conditionsOfR80 0x023120B3#32 :=
  ⟨.inl (by decide), .inr (.inl (by decide)), .inr (.inr (.inl (by decide))), .inr (.inr (.inr (.inl (by decide)))),
    .inr (.inr (.inr (.inl (by decide)))), .inr (.inr (.inr (.inr (.inl (by decide))))),
    .inr (.inr (.inr (.inr (.inr (.inl (by decide)))))), .inr (.inr (.inr (.inr (.inr (.inr (.inl (by decide))))))),
    .inr (.inr (.inr (.inr (.inr (.inr (.inr (.inl (by decide)))))))),
    .inr (.inr (.inr (.inr (.inr (.inr (.inr (.inr (.inl (by decide))))))))),
    .inr (.inr (.inr (.inr (.inr (.inr (.inr (.inr (.inr (.inl (by decide)))))))))),
    .inr (.inr (.inr (.inr (.inr (.inr (.inr (.inr (.inr (.inr (by decide))))))))))⟩

/-- UnimplementedVerdictIsExactlyItsConditions, DispatchRaisesOrRunsTheInstruction: reset itself, whose pc reads the
word 0 (log entry 5), and `addi` at the reset pc. -/
theorem witness_dispatch :
    (State.reset.status = .running ∧ fetch State.reset = .ok 0#32 ∧ verdictUnimplemented 0#32 ∧ conditionsOfR80 0#32) ∧
    (atAddi.status = .running ∧ fetch atAddi = .ok 0x02A00093#32 ∧ ¬ verdictUnimplemented 0x02A00093#32) := by
  refine ⟨⟨rfl, rfl, .inl ⟨.lowBits, rfl⟩, .inl (by decide)⟩, rfl, rfl, fun h => ?_⟩
  have e : decodeWord 0x02A00093#32 = .ok (.addi 1 0 42) := rfl
  rcases h with ⟨_, h⟩ | ⟨_, _, _, h⟩ | ⟨_, _, _, _, h⟩ <;> (rw [e] at h; cases h)

/-- StepRaisesTheFetchFaults: a pc at 2 modulo 4; the last word of a memory one byte short; a pc past the end. -/
theorem witness_fetchFaults :
    ¬ alignedAddress (setPc State.reset 0x00001002#32).pc ∧
    (alignedAddress 0x00001FFC#32 ∧
      lowestUnmapped (setPc (startOn [⟨0x00001000#32, 0x00001FFE#32, 0⟩] [] []) 0x00001FFC#32) 0x00001FFC#32 4 3) ∧
    (alignedAddress 0x00002000#32 ∧ lowestUnmapped atTheEnd 0x00002000#32 4 0) := by decide

/-- StepIsTotalOnRunningAndNoneWhenFaulted, SnapshotShowsPcRegistersAndRecord. -/
theorem witness_stepTotal :
    State.reset.status = .running ∧ (raise State.reset (unimplementedAt 0#32)).status = .faulted (unimplementedAt 0#32) := by
  decide

/-- FaultsArePrecise, FaultRecordDescribesTheFault: a fault raised by a word, and one raised by the fetch. -/
theorem witness_faults :
    (∃ t r, step State.reset = .next t ∧ t.status = .faulted r) ∧
    (∃ t r, step (setPc State.reset 0x00001002#32) = .next t ∧ t.status = .faulted r) :=
  ⟨⟨_, _, rfl, rfl⟩, ⟨_, _, rfl, rfl⟩⟩

/-- EveryStepKeepsTheInvariant, PcStaysAligned, NoStepChangesTheRoutes: a step that goes on, from a state that meets the
invariant; and the invariant in a Faulted state. -/
theorem witness_invariant :
    Invariant atAddi ∧ gives (step atAddi) 1 42#32 0x00001004#32 = true ∧
    Invariant (raise State.reset (unimplementedAt 0#32)) := by decide

theorem witness_invariant_step : ∃ t, step atAddi = .next t ∧ t.status = .running := ⟨_, rfl, rfl⟩

/-- PcAdvancesAsTheInstructionSays, EveryInstructionKeepsItsFrame, OnlySourceRegistersAreRead: an instruction that goes
on and one that raises; a register that is no source, the destination and another; a store's span. -/
theorem witness_frame :
    State.reset.status = .running ∧ goesOnAt (.add 1 2 3) State.reset = true ∧ raisesAt (.system 0 0 0 0) State.reset = true ∧
    1#5 ∉ sources (.add 1 2 3) ∧ destination (.add 1 2 3) = some 1#5 ∧ 31#5 ∉ sources (.add 1 2 3) ∧
    some 31#5 ≠ destination (.add 1 2 3) ∧
    storeSpan State.reset (.sw 6 5 (-1)) = some (0xFFFFFFFF#32, 4) ∧ goesOnAt (.sw 6 5 (-1)) State.reset = true ∧
    (∀ k < 4, sharesByte State.reset.routes (0xFFFFFFFF#32 + BitVec.ofNat 32 k) 3#32 = false) := by decide

/-- x6 and x7 lead to one misaligned word by displacements 4 and 0; x8 is the next instruction's address. -/
def oneRange : State := start [(6, 0x101#32), (7, 0x105#32), (8, 0x1004#32)] []

/-- x6 + 4 and x7 lead to one word in two ranges over one store, and so do x8 and the next instruction's address. -/
def twoRanges : State := startOn twice [(6, 0x101#32), (7, 0x10105#32), (8, 0x11004#32)] []

/-- NextFetchSeesTheStore, rs1 = x8 and displacement 0. -/
theorem witness_nextFetch :
    (alignedAddress oneRange.pc ∧
      (∀ k < 4, sharesByte oneRange.routes (readReg oneRange 8 + sext32 0#12 + BitVec.ofNat 32 k)
        (oneRange.pc + 4#32 + BitVec.ofNat 32 k) = true) ∧ distinctBytes oneRange (oneRange.pc + 4#32) 4) ∧
    (alignedAddress twoRanges.pc ∧
      (∀ k < 4, sharesByte twoRanges.routes (readReg twoRanges 8 + sext32 0#12 + BitVec.ofNat 32 k)
        (twoRanges.pc + 4#32 + BitVec.ofNat 32 k) = true) ∧ distinctBytes twoRanges (twoRanges.pc + 4#32) 4) := by decide

/-- LoadReturnsTheStoredWord, rs1 = x6, base = x7, displacements 4 and 0. -/
theorem witness_storeThenLoad :
    ((∀ k < 4, sharesByte oneRange.routes (readReg oneRange 6 + sext32 4#12 + BitVec.ofNat 32 k)
        (readReg oneRange 7 + sext32 0#12 + BitVec.ofNat 32 k) = true) ∧
      distinctBytes oneRange (readReg oneRange 6 + sext32 4#12) 4) ∧
    ((∀ k < 4, sharesByte twoRanges.routes (readReg twoRanges 6 + sext32 4#12 + BitVec.ofNat 32 k)
        (readReg twoRanges 7 + sext32 0#12 + BitVec.ofNat 32 k) = true) ∧
      distinctBytes twoRanges (readReg twoRanges 6 + sext32 4#12) 4) := by decide

/-- SelfJumpIsAFixedPoint: the word 0x0000006F at the reset pc. -/
theorem witness_selfJump :
    (State.reset.withFetchWord 32 0x6F).status = .running ∧ alignedAddress (State.reset.withFetchWord 32 0x6F).pc ∧
    allMapped (State.reset.withFetchWord 32 0x6F) 0x1000#32 4 ∧
    readByte (State.reset.withFetchWord 32 0x6F) 0x1000#32 = 0x6F#8 ∧
    readByte (State.reset.withFetchWord 32 0x6F) 0x1001#32 = 0x00#8 ∧
    readByte (State.reset.withFetchWord 32 0x6F) 0x1002#32 = 0x00#8 ∧
    readByte (State.reset.withFetchWord 32 0x6F) 0x1003#32 = 0x00#8 := by decide

/-- QuotientAndRemainderMakeUpTheDividend: the operands of the overflow but for one, and the overflow itself. -/
theorem witness_divisionLaws :
    ((1#32 : Word).toNat ≠ 0 ∧ ¬ ((0x80000000#32 : Word).toNat = 0x80000000 ∧ (1#32 : Word).toNat = 0xFFFFFFFF)) ∧
    (0xFFFFFFFF#32 : Word).toNat ≠ 0 := by decide

/-- JalLinksAndJumpsRelativeToItself: the largest 4-aligned offset, and the largest offset. -/
theorem witness_jal :
    alignedAddress (State.reset.pc + sext32 (1048572 : BitVec 21)) ∧
    ¬ alignedAddress (State.reset.pc + sext32 (1048574 : BitVec 21)) := by decide

/-- JalrLinksAndJumpsToTheEvenSum: a sum with bit 0 set whose even part is 4-aligned, and one whose even part is not. -/
theorem witness_jalr :
    ((0x2000#32 : Word).toNat = (readReg (start [(5, 0x2001#32)] []) 5 + sext32 0#12).toNat / 2 * 2 ∧
      alignedAddress 0x2000#32) ∧
    ((0x2002#32 : Word).toNat = (readReg (start [(5, 0x2003#32)] []) 5 + sext32 0#12).toNat / 2 * 2 ∧
      ¬ alignedAddress 0x2002#32) := by decide

/-- x1 = -2^31, x2 = 2^31 - 1. -/
def ordered : State := start [(1, 0x80000000#32), (2, 0x7FFFFFFF#32)] []

/-- BranchesOnEquality, BranchesOnSignedOrder, BranchesOnUnsignedOrder: each comparison true and false, at the ends of the
ranges or at equal operands; the largest 4-aligned offset and the largest offset. -/
theorem witness_branches :
    (readReg ordered 1 ≠ readReg ordered 2 ∧ readReg ordered 1 = readReg ordered 1) ∧
    ((readReg ordered 1).toInt < (readReg ordered 2).toInt ∧ ¬ (readReg ordered 1).toInt < (readReg ordered 1).toInt) ∧
    ((readReg ordered 1).toInt ≤ (readReg ordered 1).toInt ∧ ¬ (readReg ordered 2).toInt ≤ (readReg ordered 1).toInt) ∧
    ((readReg ordered 2).toNat < (readReg ordered 1).toNat ∧ ¬ (readReg ordered 1).toNat < (readReg ordered 1).toNat) ∧
    ((readReg ordered 1).toNat ≤ (readReg ordered 1).toNat ∧ ¬ (readReg ordered 1).toNat ≤ (readReg ordered 2).toNat) ∧
    alignedAddress (ordered.pc + sext32 (4092 : BitVec 13)) ∧ ¬ alignedAddress (ordered.pc + sext32 (4094 : BitVec 13)) := by
  decide

/-- ByteLoadsExtendTheByte, HalfwordLoadsExtendTwoBytes, WordLoadReadsFourBytes, StoresWriteTheLowBytesAndNoOther,
StoresToAnUnmappedByteWriteNothing: from base x6 = 0x2000, the last access that fits, and the first that does not. -/
theorem witness_loadsAndStores :
    allMapped atTheEnd (readReg atTheEnd 6 + sext32 (-1 : BitVec 12)) 1 ∧
    allMapped atTheEnd (readReg atTheEnd 6 + sext32 (-2 : BitVec 12)) 2 ∧
    allMapped atTheEnd (readReg atTheEnd 6 + sext32 (-4 : BitVec 12)) 4 ∧
    lowestUnmapped atTheEnd (readReg atTheEnd 6 + sext32 (0 : BitVec 12)) 1 0 ∧
    lowestUnmapped atTheEnd (readReg atTheEnd 6 + sext32 (-1 : BitVec 12)) 2 1 ∧
    lowestUnmapped atTheEnd (readReg atTheEnd 6 + sext32 (-3 : BitVec 12)) 4 3 := by decide

end Sys2Proof.Tests
end

/-! ### The registers and the pc: RegisterZeroIsConstantOthersHoldLastWrite, PcAdvancesAsTheInstructionSays -/

namespace Sys2Proof.Machine

open Sys2Proof.Safety

/-- R22: a sequence of writes to x0 is discarded. -/
theorem foldl_writeReg_zero (s : State) (vs : List Word) : vs.foldl (fun u v => writeReg u 0#5 v) s = s := by
  induction vs with
  | nil => rfl
  | cons v vs ih => rw [List.foldl_cons, writeReg_zero, ih]

theorem readReg_writeReg_same (s : State) {i : RegIdx} (v : Word) (hi : i ≠ 0#5) : readReg (writeReg s i v) i = v := by
  rw [readReg_writeReg, if_neg hi, if_pos rfl]

theorem readReg_writeReg_other (s : State) {i j : RegIdx} (v : Word) (hj : j ≠ i) :
    readReg (writeReg s i v) j = readReg s j := by
  rw [readReg_writeReg, if_neg hj]
  split
  · next h0 => rw [h0, readReg_zero]
  · rfl

/-- R21: after a sequence of writes a register other than x0 reads the last value of the sequence that went to it. The
induction takes the last write off, since that is the one a read meets first. -/
theorem readReg_foldl_writeReg (s : State) (ws : List (RegIdx × Word)) {i : RegIdx} (hi : i ≠ 0#5) :
    readReg (ws.foldl (fun u p => writeReg u p.1 p.2) s) i =
      (ws.reverse.find? (fun p => p.1 == i)).elim (readReg s i) Prod.snd := by
  induction ws using List.reverseRecOn with
  | nil => rfl
  | append_singleton ws p ih =>
    simp only [List.foldl_append, List.foldl_cons, List.foldl_nil, List.reverse_append, List.reverse_singleton,
      List.singleton_append, List.find?_cons]
    by_cases hp : p.1 = i
    · subst hp
      simp [readReg_writeReg_same _ _ hi]
    · rw [readReg_writeReg_other _ _ (Ne.symm hp), ih, beq_false_of_ne hp]

/-- R28, R112: an effect that leaves the core Running has raised nothing, so the pc is where the instruction goes. -/
theorem Effect.pc_of_running {i : Instr} {s t : State} (he : Effect i s t) (ht : t.status = .running) :
    t.pc = nextPc s i := by
  cases he with
  | writes rd v hd hs ha => rfl
  | goes hd hs ha => rfl
  | stores a bs hd hs hm hn => rw [hn, setPc_pc]
  | raises r hr hp hi => simp at ht

/-- R28: from a Running core only a raise leaves Running, and a raise keeps the pc. -/
theorem Effect.pc_of_not_running {i : Instr} {s t : State} (he : Effect i s t) (hs : s.status = .running)
    (ht : t.status ≠ .running) : t.pc = s.pc := by
  cases he with
  | writes rd v hd hspan ha => simp [hs] at ht
  | goes hd hspan ha => simp [hs] at ht
  | stores a bs hd hspan hm hn => simp [hs] at ht
  | raises r hr hp hi => rfl

end Sys2Proof.Machine

namespace Sys2Proof.Proofs

open Sys2Proof.Machine

/-- Settles O1: the last clause is by induction on the writes from the last one back. -/
theorem registerZeroIsConstantOthersHoldLastWrite : Obligations.RegisterZeroIsConstantOthersHoldLastWrite := by
  intro s
  refine ⟨readReg_zero s, foldl_writeReg_zero s, fun i v => readReg_writeReg_same s v,
    fun i j v => readReg_writeReg_other s v, fun ws i hi => ?_⟩
  rw [readReg_foldl_writeReg s ws hi]
  cases ws.reverse.find? (fun p => p.1 == i) <;> rfl

/-- Settles O27: by the four kinds of effect an instruction can have. -/
theorem pcAdvancesAsTheInstructionSays : Obligations.PcAdvancesAsTheInstructionSays := by
  intro i s t hs hexec
  have he : Effect i s t := effect_of_exec hexec
  exact ⟨he.pc_of_running, he.pc_of_not_running hs⟩

end Sys2Proof.Proofs

/-! ### The fields and immediates of a word: FieldsAreTheirBitRanges, ImmediatesGatherTheirBits -/

namespace Sys2Proof.Machine

/-- R66: `funct10` is `funct7` above the three bits of `funct3`. -/
theorem funct10Of_toNat (w : Word) : (funct10Of w).toNat = (funct7Of w).toNat * 2 ^ 3 + (funct3Of w).toNat := by
  rw [funct10Of, BitVec.toNat_append, ← Nat.shiftLeft_add_eq_or_of_lt (funct3Of w).isLt, Nat.shiftLeft_eq]

/-- R68: the field of the I format is `inst[31:20]`. -/
theorem fieldI_getLsbD (w : Word) (i : Nat) (hi : i < 12) : (fieldI w).getLsbD i = w.getLsbD (20 + i) := by
  rw [fieldI, BitVec.getLsbD_extractLsb', decide_eq_true hi, Bool.true_and]

theorem immI_getLsbD (w : Word) (k : Nat) (hk : k < 32) :
    (immI w).getLsbD k = w.getLsbD (if k < 11 then 20 + k else 31) := by
  rw [immI, sext32_getLsbD _ _ hk]
  split
  · rw [fieldI_getLsbD w k (by omega)]
    congr 1
    split <;> omega
  · rw [fieldI_getLsbD w 11 (by omega), if_neg (by omega)]

/-- R70: the sign bit of the field, its bit 12, is `inst[31]`, which sign extension repeats. -/
theorem immB_getLsbD (w : Word) (k : Nat) (hk : k < 32) :
    (immB w).getLsbD k =
      (if k = 0 then false else if k < 5 then w.getLsbD (7 + k) else if k < 11 then w.getLsbD (20 + k)
        else if k = 11 then w.getLsbD 7 else w.getLsbD 31) := by
  rw [immB, sext32_getLsbD _ _ hk]
  split
  · simp only [fieldB_getLsbD w k (by omega), Nat.lt_one_iff]
    grind
  · rw [fieldB_getLsbD w 12 (by omega)]
    simp (disch := omega) only [if_neg]

/-- R71: the bits below the field are the appended zeros. -/
theorem immU_getLsbD (w : Word) (k : Nat) (hk : k < 32) :
    (immU w).getLsbD k = (if k < 12 then false else w.getLsbD k) := by
  rw [immU, upper32, BitVec.getLsbD_append, BitVec.getLsbD_zero]
  split
  · rfl
  · rw [fieldU, BitVec.getLsbD_extractLsb', decide_eq_true (by omega), Bool.true_and, Nat.add_sub_of_le (by omega)]

/-- R72: the sign bit of the field, its bit 20, is `inst[31]`, which sign extension repeats. -/
theorem immJ_getLsbD (w : Word) (k : Nat) (hk : k < 32) :
    (immJ w).getLsbD k =
      (if k = 0 then false else if k < 11 then w.getLsbD (20 + k) else if k = 11 then w.getLsbD 20
        else if k < 20 then w.getLsbD k else w.getLsbD 31) := by
  rw [immJ, sext32_getLsbD _ _ hk]
  split
  · simp only [fieldJ_getLsbD w k (by omega), Nat.lt_one_iff]
    grind
  · rw [fieldJ_getLsbD w 20 (by omega)]
    simp (disch := omega) only [if_neg]

end Sys2Proof.Machine

namespace Sys2Proof.Proofs

open Sys2Proof.Machine

/-- Settles O10: each field is a slice of the word, whose number is the shifted and cut number of the word. -/
theorem fieldsAreTheirBitRanges : Obligations.FieldsAreTheirBitRanges := by
  intro w
  have slice : ∀ lo n, (w.extractLsb' lo n).toNat = w.toNat / 2 ^ lo % 2 ^ n := fun lo n => by
    rw [BitVec.extractLsb'_toNat, Nat.shiftRight_eq_div_pow]
  have hop : (opcodeOf w).toNat = w.toNat / 2 ^ 2 % 2 ^ 5 := slice 2 5
  refine ⟨hop, fun hlow => ?_, slice 7 5, slice 15 5, slice 20 5, slice 12 3, slice 25 7, funct10Of_toNat w⟩
  rw [hop]
  omega

/-- Settles O11: an immediate is its gathered field, extended or put in place. -/
theorem immediatesGatherTheirBits : Obligations.ImmediatesGatherTheirBits := fun w k hk =>
  ⟨immI_getLsbD w k hk, immB_getLsbD w k hk, immU_getLsbD w k hk, immJ_getLsbD w k hk⟩

end Sys2Proof.Proofs

/-! ### What a decoded word is, group by group (R74 to R80), and the instructions the table of OP selects (R75) -/

namespace Sys2Proof

theorem encodeU_of_major {w : Word} {m : BitVec 7} (hm : majorOf w = m) : encodeU (fieldU w) (rdOf w) m = w := by
  subst hm; exact encodeU_fields w

theorem encodeJ_of_major {w : Word} {m : BitVec 7} (hm : majorOf w = m) : encodeJ (fieldJ w) (rdOf w) m = w := by
  subst hm; exact encodeJ_fields w

/-- R75: the row found under the word's funct10 is the word's own R format. -/
theorem encode_of_decodeOp {w : Word} {i : Instr} (hm : majorOf w = 0b0110011#7) (h : decodeOp w = .ok i) :
    encode i = w ∧ wellFormed i = true := by
  unfold decodeOp at h
  split at h
  · next mk hmk =>
    cases h
    obtain ⟨henc, hwf⟩ := opTable_rows _ (lookupKey_mem hmk) (rdOf w) (rs1Of w) (rs2Of w)
    exact ⟨henc.trans (encodeR_of_funct10 hm rfl), hwf⟩
  · cases h

/-- R76: funct3 selects an I format, and for the shifts funct10 selects an R format with the amount in place of rs2. -/
theorem encode_of_decodeOpImm {w : Word} {i : Instr} (hm : majorOf w = 0b0010011#7) (h : decodeOpImm w = .ok i) :
    encode i = w ∧ wellFormed i = true := by
  unfold decodeOpImm at h
  repeat' split at h
  all_goals cases h
  -- addi, slti, sltiu, xori, ori, andi; then slli, srli, srai
  iterate 6 exact ⟨encodeI_of_funct3 hm ‹_›, rfl⟩
  · next hk => exact ⟨encodeR_of_funct10 (k := 0x001#10) hm hk, rfl⟩
  · next hk => exact ⟨encodeR_of_funct10 (k := 0x005#10) hm hk, rfl⟩
  · next hk => exact ⟨encodeR_of_funct10 (k := 0x105#10) hm hk, rfl⟩

theorem encode_of_decodeLoad {w : Word} {i : Instr} (hm : majorOf w = 0b0000011#7) (h : decodeLoad w = .ok i) :
    encode i = w ∧ wellFormed i = true := by
  unfold decodeLoad at h
  repeat' split at h
  all_goals cases h
  all_goals exact ⟨encodeI_of_funct3 hm ‹_›, rfl⟩

theorem encode_of_decodeStore {w : Word} {i : Instr} (hm : majorOf w = 0b0100011#7) (h : decodeStore w = .ok i) :
    encode i = w ∧ wellFormed i = true := by
  unfold decodeStore at h
  repeat' split at h
  all_goals cases h
  all_goals exact ⟨encodeS_of_funct3 hm ‹_›, rfl⟩

theorem encode_of_decodeBranch {w : Word} {i : Instr} (hm : majorOf w = 0b1100011#7) (h : decodeBranch w = .ok i) :
    encode i = w ∧ wellFormed i = true := by
  unfold decodeBranch at h
  repeat' split at h
  all_goals cases h
  all_goals exact ⟨encodeB_of_funct3 hm ‹_›, evenOffset_fieldB w⟩

theorem encode_of_decodeJalr {w : Word} {i : Instr} (hm : majorOf w = 0b1100111#7) (h : decodeJalr w = .ok i) :
    encode i = w ∧ wellFormed i = true := by
  unfold decodeJalr at h
  split at h
  all_goals cases h
  exact ⟨encodeI_of_funct3 hm ‹_›, rfl⟩

/-- R79: FENCE keeps its immediate as three fields. -/
theorem encode_of_decodeMiscMem {w : Word} {i : Instr} (hm : majorOf w = 0b0001111#7) (h : decodeMiscMem w = .ok i) :
    encode i = w ∧ wellFormed i = true := by
  unfold decodeMiscMem at h
  split at h
  all_goals cases h
  refine ⟨?_, rfl⟩
  rw [encode, fenceFields]
  exact encodeI_of_funct3 hm ‹_›

/-- R74: the group and the low bits together are the major field, which each format takes as it stands. -/
theorem encode_of_decodeGroup {w : Word} {i : Instr} (hl : lowBitsOf w = 0b11#2) (h : decodeGroup w = .ok i) :
    encode i = w ∧ wellFormed i = true := by
  have major : ∀ o, opcodeOf w = o → majorOf w = (o ++ 0b11#2 : BitVec (5 + 2)) := fun o => majorOf_of_group hl
  unfold decodeGroup at h
  repeat' split at h
  · next ho => exact encode_of_decodeLoad (major _ ho) h
  · next ho => exact encode_of_decodeMiscMem (major _ ho) h
  · next ho => exact encode_of_decodeOpImm (major _ ho) h
  · next ho => cases h; exact ⟨encodeU_of_major (major _ ho), rfl⟩
  · next ho => exact encode_of_decodeStore (major _ ho) h
  · next ho => exact encode_of_decodeOp (major _ ho) h
  · next ho => cases h; exact ⟨encodeU_of_major (major _ ho), rfl⟩
  · next ho => exact encode_of_decodeBranch (major _ ho) h
  · next ho => exact encode_of_decodeJalr (major _ ho) h
  · next ho => cases h; exact ⟨encodeJ_of_major (major _ ho), evenOffset_fieldJ w⟩
  · next ho => cases h; exact ⟨encodeI_of_funct3 (major _ ho) rfl, rfl⟩
  · cases h

/-- R61, R74 to R80: a word that decodes is the word of its instruction, which is well-formed. So the fields of the
word can be read off the instruction, which is how a match and mask is shown necessary. -/
theorem encode_of_decodeWord {w : Word} {i : Instr} (h : decodeWord w = .ok i) :
    encode i = w ∧ wellFormed i = true := by
  unfold decodeWord at h
  split at h
  · next hl => exact encode_of_decodeGroup hl h
  · cases h

theorem lowBitsOf_of_majorOf {w : Word} {m : BitVec 7} (hm : majorOf w = m) : lowBitsOf w = m.extractLsb' 0 2 := by
  subst hm
  exact slice_eq fun i hi => by simp [majorOf, hi]

theorem opcodeOf_of_majorOf {w : Word} {m : BitVec 7} (hm : majorOf w = m) : opcodeOf w = m.extractLsb' 2 5 := by
  subst hm
  exact slice_eq fun i hi => by simp [majorOf, hi]

/-- R74: a word with the major field of OP is decided by that group alone. -/
theorem decodeWord_of_op {w : Word} (hm : majorOf w = 0b0110011#7) : decodeWord w = decodeOp w := by
  have hl : lowBitsOf w = 0b11#2 := lowBitsOf_of_majorOf hm
  have ho : opcodeOf w = 0b01100#5 := opcodeOf_of_majorOf hm
  rw [decodeWord, if_pos hl, decodeGroup, ho]
  rfl

/-- A word of the R format has the fields it was made from. -/
theorem fields_of_encodeR {f7 : BitVec 7} {r2 r1 : RegIdx} {f3 : BitVec 3} {rd : RegIdx} {m : BitVec 7} {w : Word}
    (h : encodeR f7 r2 r1 f3 rd m = w) : funct7Of w = f7 ∧ funct3Of w = f3 ∧ majorOf w = m := by
  subst h
  exact ⟨funct7Of_encodeR .., funct3Of_encodeR .., majorOf_encodeR ..⟩

/-- R75: the word of an instruction of the table has the funct7 and the funct3 of its row. -/
theorem encode_of_opTable {f7 : BitVec 7} {f3 : BitVec 3} {mk : RegIdx → RegIdx → RegIdx → Instr}
    (hrow : lookupKey (f7 ++ f3 : BitVec (7 + 3)) opTable = some mk) (rd rs1 rs2 : RegIdx) :
    encode (mk rd rs1 rs2) = encodeR f7 rs2 rs1 f3 rd 0b0110011#7 := by
  rw [(opTable_rows _ (lookupKey_mem hrow) rd rs1 rs2).1, BitVec.extractLsb'_append_eq_left,
    BitVec.extractLsb'_append_eq_right]

end Sys2Proof

namespace Sys2Proof.Machine

open Sys2Proof.Safety Sys2Proof.Claims

/-- R75: the match and mask of a row of the table. A word that decodes to the row's instruction is that instruction's
word, which has the row's fields; a word with the row's fields finds the row. -/
theorem selects_of_opTable {f7 : BitVec 7} {f3 : BitVec 3} {mk : RegIdx → RegIdx → RegIdx → Instr}
    (hrow : lookupKey (f7 ++ f3 : BitVec (7 + 3)) opTable = some mk) :
    selects (encodeR f7 0 0 f3 0 0b0110011#7) 0xFE00707F (fun w => mk (rdOf w) (rs1Of w) (rs2Of w)) := by
  intro w
  refine Iff.trans ⟨fun hdec => ?_, ?_⟩ (mask_funct10 w f7 f3 0b0110011#7).symm
  · have henc := (encode_of_decodeWord hdec).1
    rw [encode_of_opTable hrow] at henc
    exact fields_of_encodeR henc
  · rintro ⟨h7, h3, hm⟩
    have hk : funct10Of w = f7 ++ f3 := by rw [funct10Of, h7, h3]
    rw [decodeWord_of_op hm, decodeOp, hk, hrow]

/-- A row of the table whose meaning is `aluReg op` has the whole R form, for any relation that `op` meets. -/
theorem registerForm_of_aluReg {f7 : BitVec 7} {f3 : BitVec 3} {mk : RegIdx → RegIdx → RegIdx → Instr}
    {op : Word → Word → Word} {result : Word → Word → Word → Prop}
    (hrow : lookupKey (f7 ++ f3 : BitVec (7 + 3)) opTable = some mk)
    (hexec : ∀ rd rs1 rs2 s, exec (mk rd rs1 rs2) s = aluReg op rd rs1 rs2 s)
    (hop : ∀ a b, result a b (op a b)) :
    registerForm (encodeR f7 0 0 f3 0 0b0110011#7) 0xFE00707F mk result :=
  ⟨selects_of_opTable hrow, fun rd rs1 rs2 s =>
    ⟨_, _, hexec rd rs1 rs2 s, writesRegister_writeReg s rd _, hop _ _⟩⟩

/-! ### The operations of the register-register instructions as numbers -/

theorem bit_toNat (c : Bool) : (bit c).toNat = if c then 1 else 0 := by
  cases c <;> rfl

/-- R121: the difference is the word that the subtrahend completes to the minuend, modulo 2^32. -/
theorem subOp_toNat_add (a b : Word) : ((subOp a b).toNat + b.toNat) % 2 ^ 32 = a.toNat := by
  rw [← BitVec.toNat_add, subOp, BitVec.sub_add_cancel]

/-- R123. -/
theorem sltOp_toNat (a b : Word) : (sltOp a b).toNat = if a.toInt < b.toInt then 1 else 0 := by
  simp only [sltOp, lessSigned, bit_toNat, decide_eq_true_eq]

/-- R124. -/
theorem sltuOp_toNat (a b : Word) : (sltuOp a b).toNat = if a.toNat < b.toNat then 1 else 0 := by
  simp only [sltuOp, lessUnsigned, bit_toNat, decide_eq_true_eq]

/-- R126: the low 5 bits are the remainder by 32. -/
theorem shiftAmount_toNat (b : Word) : (shiftAmount b).toNat = b.toNat % 32 := by
  rw [shiftAmount, BitVec.extractLsb'_toNat, Nat.shiftRight_zero]

theorem shiftRightZero_toNat (a : Word) (n : BitVec 5) : (shiftRightZero a n).toNat = a.toNat / 2 ^ n.toNat := by
  rw [shiftRightZero, BitVec.toNat_ushiftRight, Nat.shiftRight_eq_div_pow]

end Sys2Proof.Machine

/-! ### Register-register ALU: AddAndSubWrapModulo32Bits, SetLessThanWritesOneOrZero, BitwiseOperationsActOnEveryBit,
SrlShiftsRightWithZeros; and WordsOfTheSpecDecode -/

namespace Sys2Proof.Proofs

open Sys2Proof.Machine

/-- Settles O33: both are rows of the table of OP, and the value is the operation's own sum or difference. -/
theorem addAndSubWrapModulo32Bits : Obligations.AddAndSubWrapModulo32Bits :=
  ⟨registerForm_of_aluReg (f7 := 0b0000000#7) (f3 := 0b000#3) rfl (fun _ _ _ _ => rfl) BitVec.toNat_add,
    registerForm_of_aluReg (f7 := 0b0100000#7) (f3 := 0b000#3) rfl (fun _ _ _ _ => rfl) subOp_toNat_add⟩

/-- Settles O34: both are rows of the table of OP, and the value is the bit of the comparison. -/
theorem setLessThanWritesOneOrZero : Obligations.SetLessThanWritesOneOrZero :=
  ⟨registerForm_of_aluReg (f7 := 0b0000000#7) (f3 := 0b010#3) rfl (fun _ _ _ _ => rfl) sltOp_toNat,
    registerForm_of_aluReg (f7 := 0b0000000#7) (f3 := 0b011#3) rfl (fun _ _ _ _ => rfl) sltuOp_toNat⟩

/-- Settles O35: the three are rows of the table of OP, and the library says what each does to a bit. -/
theorem bitwiseOperationsActOnEveryBit : Obligations.BitwiseOperationsActOnEveryBit :=
  ⟨registerForm_of_aluReg (f7 := 0b0000000#7) (f3 := 0b100#3) rfl (fun _ _ _ _ => rfl) fun _ _ _ => BitVec.getLsbD_xor,
    registerForm_of_aluReg (f7 := 0b0000000#7) (f3 := 0b110#3) rfl (fun _ _ _ _ => rfl) fun _ _ _ => BitVec.getLsbD_or,
    registerForm_of_aluReg (f7 := 0b0000000#7) (f3 := 0b111#3) rfl (fun _ _ _ _ => rfl) fun _ _ _ => BitVec.getLsbD_and⟩

/-- Settles O36: a row of the table of OP, whose amount is the remainder of `x[rs2]` by 32. -/
theorem srlShiftsRightWithZeros : Obligations.SrlShiftsRightWithZeros :=
  registerForm_of_aluReg (f7 := 0b0000000#7) (f3 := 0b101#3) rfl (fun _ _ _ _ => rfl) fun a b => by
    rw [shiftRightZero_toNat, shiftAmount_toNat]

/-- Settles O16: twelve closed words, each evaluated by the decoder. -/
theorem wordsOfTheSpecDecode : Obligations.WordsOfTheSpecDecode := by
  unfold Obligations.WordsOfTheSpecDecode
  decide

end Sys2Proof.Proofs

/-! ### The instructions of OP-IMM that funct3 selects (R76), as a table like that of OP -/

namespace Sys2Proof

/-- The rows of OP-IMM that take a 12-bit immediate: funct3 and the operation it selects (R76). `decodeOpImm_of_row` and
`encode_of_opImmRow` tie the table to the model's decoder and encoder. -/
def opImmTable : List (BitVec 3 × (RegIdx → RegIdx → BitVec 12 → Instr)) :=
  [(0b000#3, .addi), (0b010#3, .slti), (0b011#3, .sltiu), (0b100#3, .xori), (0b110#3, .ori), (0b111#3, .andi)]

/-- R74: a word with the major field of OP-IMM is decided by that group alone. -/
theorem decodeWord_of_opImm {w : Word} (hm : majorOf w = 0b0010011#7) : decodeWord w = decodeOpImm w := by
  have hl : lowBitsOf w = 0b11#2 := lowBitsOf_of_majorOf hm
  have ho : opcodeOf w = 0b00100#5 := opcodeOf_of_majorOf hm
  rw [decodeWord, if_pos hl, decodeGroup, ho]
  rfl

/-- R76: the row found under the word's funct3 is what the group selects. -/
theorem decodeOpImm_of_row {w : Word} {mk : RegIdx → RegIdx → BitVec 12 → Instr}
    (hrow : lookupKey (funct3Of w) opImmTable = some mk) : decodeOpImm w = .ok (mk (rdOf w) (rs1Of w) (fieldI w)) := by
  have hmem := lookupKey_mem hrow
  simp only [opImmTable, List.mem_cons, Prod.mk.injEq, List.not_mem_nil, or_false] at hmem
  rcases hmem with ⟨h3, rfl⟩ | ⟨h3, rfl⟩ | ⟨h3, rfl⟩ | ⟨h3, rfl⟩ | ⟨h3, rfl⟩ | ⟨h3, rfl⟩
  all_goals rw [decodeOpImm, h3]; rfl

/-- R76: the word of a row's instruction is the I format with the row's funct3. -/
theorem encode_of_opImmRow {f3 : BitVec 3} {mk : RegIdx → RegIdx → BitVec 12 → Instr}
    (hrow : lookupKey f3 opImmTable = some mk) (rd rs1 : RegIdx) (imm : BitVec 12) :
    encode (mk rd rs1 imm) = encodeI imm rs1 f3 rd 0b0010011#7 := by
  have hrows : ∀ row ∈ opImmTable, encode (row.2 rd rs1 imm) = encodeI imm rs1 row.1 rd 0b0010011#7 := by
    simp [opImmTable, encode]
  exact hrows _ (lookupKey_mem hrow)

/-- A word of the I format has the selecting fields it was made from. -/
theorem fields_of_encodeI {imm : BitVec 12} {r1 : RegIdx} {f3 : BitVec 3} {rd : RegIdx} {m : BitVec 7} {w : Word}
    (h : encodeI imm r1 f3 rd m = w) : funct3Of w = f3 ∧ majorOf w = m := by
  subst h
  exact ⟨funct3Of_encodeI .., majorOf_encodeI ..⟩

end Sys2Proof

namespace Sys2Proof.Machine

open Sys2Proof.Safety Sys2Proof.Claims

/-- The match and mask of an I-format instruction that funct3 and the major field select. A word that decodes to the
instruction is its word, which has these fields; a word with these fields is decided by `hdec`. -/
theorem selects_of_funct3 {f3 : BitVec 3} {m : BitVec 7} {mk : RegIdx → RegIdx → BitVec 12 → Instr}
    (henc : ∀ rd rs1 imm, encode (mk rd rs1 imm) = encodeI imm rs1 f3 rd m)
    (hdec : ∀ w, funct3Of w = f3 → majorOf w = m → decodeWord w = .ok (mk (rdOf w) (rs1Of w) (fieldI w))) :
    selects (encodeI 0 0 f3 0 m) 0x0000707F (fun w => mk (rdOf w) (rs1Of w) (fieldI w)) := by
  intro w
  refine Iff.trans ⟨fun h => ?_, fun ⟨h3, hm⟩ => hdec w h3 hm⟩ (mask_funct3 w f3 m).symm
  exact fields_of_encodeI ((henc _ _ _).symm.trans (encode_of_decodeWord h).1)

/-- A row of the table whose meaning is `aluImm op` has the whole immediate form, for any relation that `op` meets. -/
theorem immediateForm_of_aluImm {f3 : BitVec 3} {mk : RegIdx → RegIdx → BitVec 12 → Instr} {op : Word → Word → Word}
    {result : Word → Word → Word → Prop} (hrow : lookupKey f3 opImmTable = some mk)
    (hexec : ∀ rd rs1 imm s, exec (mk rd rs1 imm) s = aluImm op rd rs1 imm s) (hop : ∀ a b, result a b (op a b)) :
    immediateForm (encodeI 0 0 f3 0 0b0010011#7) 0x0000707F mk result :=
  ⟨selects_of_funct3 (encode_of_opImmRow hrow) fun _ h3 hm =>
      (decodeWord_of_opImm hm).trans (decodeOpImm_of_row (h3 ▸ hrow)),
    fun rd rs1 imm s => ⟨_, _, hexec rd rs1 imm s, writesRegister_writeReg s rd _, hop _ _⟩⟩

end Sys2Proof.Machine

/-! ### Register-immediate ALU: ImmediateOperationsUseTheSignExtendedImmediate -/

namespace Sys2Proof.Proofs

open Sys2Proof.Machine

/-- Settles O38: the five are rows of the table of OP-IMM, with the operations of their register forms. -/
theorem immediateOperationsUseTheSignExtendedImmediate : Obligations.ImmediateOperationsUseTheSignExtendedImmediate :=
  ⟨immediateForm_of_aluImm (f3 := 0b000#3) rfl (fun _ _ _ _ => rfl) BitVec.toNat_add,
    immediateForm_of_aluImm (f3 := 0b010#3) rfl (fun _ _ _ _ => rfl) sltOp_toNat,
    immediateForm_of_aluImm (f3 := 0b100#3) rfl (fun _ _ _ _ => rfl) fun _ _ _ => BitVec.getLsbD_xor,
    immediateForm_of_aluImm (f3 := 0b110#3) rfl (fun _ _ _ _ => rfl) fun _ _ _ => BitVec.getLsbD_or,
    immediateForm_of_aluImm (f3 := 0b111#3) rfl (fun _ _ _ _ => rfl) fun _ _ _ => BitVec.getLsbD_and⟩

end Sys2Proof.Proofs

/-! ### The high words of the products as numbers -/

namespace Sys2Proof.Machine

/-- The high word is the floor of the integer over 2^32, narrowed to 32 bits. -/
theorem highWord_eq_ofInt (p : Int) : highWord p = BitVec.ofInt 32 (p / 2 ^ 32) := by
  apply BitVec.eq_of_toNat_eq
  rw [highWord, BitVec.extractLsb'_toNat, BitVec.toNat_ofInt, BitVec.toNat_ofInt, Nat.shiftRight_eq_div_pow]
  omega

/-- R161: the product of two signed words lies in -2^62 to 2^62, so its floor over 2^32 is a signed word. -/
theorem mulhOp_toInt (a b : Word) : (mulhOp a b).toInt = a.toInt * b.toInt / 2 ^ 32 := by
  have hle : a.toInt * b.toInt ≤ 2 ^ 62 := BitVec.toInt_mul_toInt_le
  have hge : -(2 ^ 62) ≤ a.toInt * b.toInt := BitVec.le_toInt_mul_toInt
  rw [mulhOp, highWord_eq_ofInt]
  exact BitVec.toInt_ofInt_eq_self (by decide) (by omega) (by omega)

/-- R162: the product of two unsigned words is below 2^64, so its floor over 2^32 is an unsigned word. -/
theorem mulhuOp_toNat (a b : Word) : (mulhuOp a b).toNat = a.toNat * b.toNat / 2 ^ 32 := by
  have hlt : a.toNat * b.toNat < 2 ^ 32 * 2 ^ 32 := Nat.mul_lt_mul'' a.isLt b.isLt
  rw [mulhuOp, highWord_eq_ofInt, BitVec.toNat_ofInt]
  omega

end Sys2Proof.Machine

/-! ### Multiply: MultiplyGivesTheWordsOfTheExactProduct -/

namespace Sys2Proof.Proofs

open Sys2Proof.Machine

/-- Settles O41: the three are rows of the table of OP; the low word is the product modulo 2^32, and each high word is
the floor of a product whose bounds make that floor fit in a word. -/
theorem multiplyGivesTheWordsOfTheExactProduct : Obligations.MultiplyGivesTheWordsOfTheExactProduct :=
  ⟨registerForm_of_aluReg (f7 := 0b0000001#7) (f3 := 0b000#3) rfl (fun _ _ _ _ => rfl) BitVec.toNat_mul,
    registerForm_of_aluReg (f7 := 0b0000001#7) (f3 := 0b001#3) rfl (fun _ _ _ _ => rfl) mulhOp_toInt,
    registerForm_of_aluReg (f7 := 0b0000001#7) (f3 := 0b011#3) rfl (fun _ _ _ _ => rfl) mulhuOp_toNat⟩

end Sys2Proof.Proofs

/-! ### The instructions that the major field alone selects (R78, R79), and the upper immediate as a number -/

namespace Sys2Proof

/-- R78: a word with the major field of LUI is that LUI. -/
theorem decodeWord_of_lui {w : Word} (hm : majorOf w = 0b0110111#7) : decodeWord w = .ok (.lui (rdOf w) (fieldU w)) := by
  have hl : lowBitsOf w = 0b11#2 := lowBitsOf_of_majorOf hm
  have ho : opcodeOf w = 0b01101#5 := opcodeOf_of_majorOf hm
  rw [decodeWord, if_pos hl, decodeGroup, ho]
  rfl

/-- R71: the twelve appended zeros shift the field up. -/
theorem upper32_toNat (imm : BitVec 20) : (upper32 imm).toNat = imm.toNat * 2 ^ 12 := by
  rw [upper32, BitVec.toNat_append, BitVec.toNat_ofNat, Nat.zero_mod, Nat.or_zero, Nat.shiftLeft_eq]

end Sys2Proof

namespace Sys2Proof.Machine

open Sys2Proof.Claims

/-- The match and mask of an instruction that the major field alone selects. A word that decodes to the instruction is
its word, which has this major field; a word with this major field is decided by `hdec`. -/
theorem selects_of_major {m : BitVec 7} {mk : Word → Instr} (henc : ∀ w, majorOf (encode (mk w)) = m)
    (hdec : ∀ w, majorOf w = m → decodeWord w = .ok (mk w)) : selects (encodeU 0 0 m) 0x0000007F mk := by
  intro w
  refine Iff.trans ⟨fun h => ?_, hdec w⟩ (mask_major w m).symm
  rw [← henc w, (encode_of_decodeWord h).1]

end Sys2Proof.Machine

/-! ### Upper immediates: LuiWritesTheUpperImmediate -/

namespace Sys2Proof.Proofs

open Sys2Proof.Machine

/-- Settles O46: the major field selects LUI, which writes the field in place whatever the state. -/
theorem luiWritesTheUpperImmediate : Obligations.LuiWritesTheUpperImmediate :=
  ⟨selects_of_major (m := 0b0110111#7) (fun _ => majorOf_encodeU ..) fun _ => decodeWord_of_lui,
    fun rd imm s => ⟨_, _, rfl, writesRegister_writeReg s rd _, upper32_toNat imm⟩⟩

end Sys2Proof.Proofs

/-! ### The decoder by the fields that select an instruction (R74 to R79): a table per group, an encoding per format -/

namespace Sys2Proof

/-! #### Lookup in a table -/

theorem elim_lookupKey_cons {n : Nat} {α β : Type} (key k : BitVec n) (a : α) (t : List (BitVec n × α)) (b : β)
    (f : α → β) :
    (lookupKey key ((k, a) :: t)).elim b f = if key = k then f a else (lookupKey key t).elim b f := by
  rw [lookupKey]
  split <;> rfl

theorem elim_lookupKey_nil {n : Nat} {α β : Type} (key : BitVec n) (b : β) (f : α → β) :
    (lookupKey key []).elim b f = b := rfl

/-- In a table whose keys differ, every row is found under its key. -/
theorem lookupKey_of_mem {n : Nat} {α : Type} {t : List (BitVec n × α)} (hkeys : (t.map Prod.fst).Nodup)
    {k : BitVec n} {a : α} (h : (k, a) ∈ t) : lookupKey k t = some a := by
  induction t with
  | nil => cases h
  | cons c t ih =>
    obtain ⟨hc, ht⟩ := List.nodup_cons.1 hkeys
    rcases List.mem_cons.1 h with rfl | h
    · exact if_pos rfl
    · have hne : k ≠ c.1 := fun e => hc (e ▸ List.mem_map_of_mem h)
      exact (if_neg hne).trans (ih ht h)

/-- A key that is not found is the key of no row. -/
theorem lookupKey_eq_none {n : Nat} {α : Type} {k : BitVec n} {t : List (BitVec n × α)} (h : lookupKey k t = none) :
    k ∉ t.map Prod.fst := by
  induction t with
  | nil => simp
  | cons c t ih =>
    simp only [lookupKey] at h
    split at h
    · cases h
    · next hne => exact List.not_mem_cons_of_ne_of_not_mem hne (ih h)

/-! #### The tables -/

/-- The groups and what decides a word of each (R74). `decodeGroup_eq_lookup` ties the table to the model's decoder. -/
def groupTable : List (BitVec 5 × (Word → Except Reject Instr)) :=
  [(0b00000#5, decodeLoad), (0b00011#5, decodeMiscMem), (0b00100#5, decodeOpImm),
   (0b00101#5, fun w => .ok (.auipc (rdOf w) (fieldU w))), (0b01000#5, decodeStore), (0b01100#5, decodeOp),
   (0b01101#5, fun w => .ok (.lui (rdOf w) (fieldU w))), (0b11000#5, decodeBranch), (0b11001#5, decodeJalr),
   (0b11011#5, fun w => .ok (.jal (rdOf w) (fieldJ w))),
   (0b11100#5, fun w => .ok (.system (fieldI w) (rs1Of w) (funct3Of w) (rdOf w)))]

/-- The rows of LOAD (R77), tied to the model by `decodeLoad_eq_lookup`. -/
def loadTable : List (BitVec 3 × (RegIdx → RegIdx → BitVec 12 → Instr)) :=
  [(0b000#3, .lb), (0b001#3, .lh), (0b010#3, .lw), (0b100#3, .lbu), (0b101#3, .lhu)]

/-- The rows of STORE (R77), tied to the model by `decodeStore_eq_lookup`. -/
def storeTable : List (BitVec 3 × (RegIdx → RegIdx → BitVec 12 → Instr)) :=
  [(0b000#3, .sb), (0b001#3, .sh), (0b010#3, .sw)]

/-- The rows of BRANCH (R77), tied to the model by `decodeBranch_eq_lookup`. -/
def branchTable : List (BitVec 3 × (RegIdx → RegIdx → BitVec 13 → Instr)) :=
  [(0b000#3, .beq), (0b001#3, .bne), (0b100#3, .blt), (0b101#3, .bge), (0b110#3, .bltu), (0b111#3, .bgeu)]

/-- The shifts of OP-IMM under funct10 (R76), tied to the model by `decodeOpImm_eq_lookup`. -/
def shiftTable : List (BitVec 10 × (RegIdx → RegIdx → BitVec 5 → Instr)) :=
  [(0x001#10, .slli), (0x005#10, .srli), (0x105#10, .srai)]

theorem decodeGroup_eq_lookup (w : Word) :
    decodeGroup w = (lookupKey (opcodeOf w) groupTable).elim (.error .noGroup) (fun d => d w) := by
  simp only [groupTable, elim_lookupKey_cons, elim_lookupKey_nil, decodeGroup]

theorem decodeOp_eq_lookup (w : Word) :
    decodeOp w = (lookupKey (funct10Of w) opTable).elim (.error .noFunction)
      (fun mk => .ok (mk (rdOf w) (rs1Of w) (rs2Of w))) := by
  rw [decodeOp]
  cases lookupKey (funct10Of w) opTable <;> rfl

theorem decodeLoad_eq_lookup (w : Word) :
    decodeLoad w = (lookupKey (funct3Of w) loadTable).elim (.error .noFunction)
      (fun mk => .ok (mk (rdOf w) (rs1Of w) (fieldI w))) := by
  simp only [loadTable, elim_lookupKey_cons, elim_lookupKey_nil, decodeLoad]

theorem decodeStore_eq_lookup (w : Word) :
    decodeStore w = (lookupKey (funct3Of w) storeTable).elim (.error .noFunction)
      (fun mk => .ok (mk (rs1Of w) (rs2Of w) (fieldS w))) := by
  simp only [storeTable, elim_lookupKey_cons, elim_lookupKey_nil, decodeStore]

theorem decodeBranch_eq_lookup (w : Word) :
    decodeBranch w = (lookupKey (funct3Of w) branchTable).elim (.error .noFunction)
      (fun mk => .ok (mk (rs1Of w) (rs2Of w) (fieldB w))) := by
  simp only [branchTable, elim_lookupKey_cons, elim_lookupKey_nil, decodeBranch]

/-- R76: the rows with an immediate first, then the shifts. -/
theorem decodeOpImm_eq_lookup (w : Word) :
    decodeOpImm w = (lookupKey (funct3Of w) opImmTable).elim
      ((lookupKey (funct10Of w) shiftTable).elim (.error .noFunction)
        fun mk => .ok (mk (rdOf w) (rs1Of w) (shamtOf w)))
      (fun mk => .ok (mk (rdOf w) (rs1Of w) (fieldI w))) := by
  simp only [opImmTable, shiftTable, elim_lookupKey_cons, elim_lookupKey_nil, decodeOpImm]

/-- R61, R74: a word whose major field holds the low bits 11 and a group's opcode is decided by that group alone. -/
theorem decodeWord_of_group {m : BitVec 7} {d : Word → Except Reject Instr} (hl : m.extractLsb' 0 2 = 0b11#2)
    (hrow : lookupKey (m.extractLsb' 2 5) groupTable = some d) {w : Word} (hm : majorOf w = m) :
    decodeWord w = d w := by
  rw [decodeWord, if_pos ((lowBitsOf_of_majorOf hm).trans hl), decodeGroup_eq_lookup, opcodeOf_of_majorOf hm, hrow]
  rfl

/-! #### The encoding of an instruction in each format: its word, and the selecting fields that decode to it -/

/-- `mk` is the instruction of the R format under funct10 `k` and the major field `m`. -/
def EncodedR (k : BitVec 10) (m : BitVec 7) (mk : RegIdx → RegIdx → RegIdx → Instr) : Prop :=
  (∀ rd rs1 rs2, encode (mk rd rs1 rs2) = encodeR (k.extractLsb' 3 7) rs2 rs1 (k.extractLsb' 0 3) rd m) ∧
  ∀ w, funct10Of w = k → majorOf w = m → decodeWord w = .ok (mk (rdOf w) (rs1Of w) (rs2Of w))

/-- `mk` is the instruction of the I format under funct3 and the major field `m`. -/
def EncodedI (f3 : BitVec 3) (m : BitVec 7) (mk : RegIdx → RegIdx → BitVec 12 → Instr) : Prop :=
  (∀ rd rs1 imm, encode (mk rd rs1 imm) = encodeI imm rs1 f3 rd m) ∧
  ∀ w, funct3Of w = f3 → majorOf w = m → decodeWord w = .ok (mk (rdOf w) (rs1Of w) (fieldI w))

/-- `mk` is the instruction of the S format under funct3 and the major field `m`. -/
def EncodedS (f3 : BitVec 3) (m : BitVec 7) (mk : RegIdx → RegIdx → BitVec 12 → Instr) : Prop :=
  (∀ rs1 rs2 imm, encode (mk rs1 rs2 imm) = encodeS imm rs2 rs1 f3 m) ∧
  ∀ w, funct3Of w = f3 → majorOf w = m → decodeWord w = .ok (mk (rs1Of w) (rs2Of w) (fieldS w))

/-- `mk` is the instruction of the B format under funct3 and the major field `m`. -/
def EncodedB (f3 : BitVec 3) (m : BitVec 7) (mk : RegIdx → RegIdx → BitVec 13 → Instr) : Prop :=
  (∀ rs1 rs2 offset, encode (mk rs1 rs2 offset) = encodeB offset rs2 rs1 f3 m) ∧
  ∀ w, funct3Of w = f3 → majorOf w = m → decodeWord w = .ok (mk (rs1Of w) (rs2Of w) (fieldB w))

theorem encodedR_of_opTable : ∀ row ∈ opTable, EncodedR row.1 0b0110011#7 row.2 := by
  intro row hrow
  refine ⟨fun rd rs1 rs2 => (opTable_rows row hrow rd rs1 rs2).1, fun w hk hm => ?_⟩
  rw [decodeWord_of_op hm, decodeOp_eq_lookup, hk, lookupKey_of_mem (by decide) hrow]
  rfl

/-- No funct3 of a shift has a row with an immediate. -/
theorem encodedR_of_shiftTable : ∀ row ∈ shiftTable, EncodedR row.1 0b0010011#7 row.2 := by
  have hword : ∀ row ∈ shiftTable, ∀ rd rs1 shamt, encode (row.2 rd rs1 shamt) =
      encodeR (row.1.extractLsb' 3 7) shamt rs1 (row.1.extractLsb' 0 3) rd 0b0010011#7 := by
    simp [shiftTable, encode]
  have hnot : ∀ row ∈ shiftTable, lookupKey (row.1.extractLsb' 0 3) opImmTable = none := by
    simp [shiftTable, opImmTable, lookupKey]
  intro row hrow
  refine ⟨hword row hrow, fun w hk hm => ?_⟩
  rw [decodeWord_of_opImm hm, decodeOpImm_eq_lookup, funct3Of_eq_slice, hk, hnot row hrow,
    lookupKey_of_mem (by decide) hrow]
  rfl

theorem encodedI_of_opImmTable : ∀ row ∈ opImmTable, EncodedI row.1 0b0010011#7 row.2 := by
  intro row hrow
  have hfound : lookupKey row.1 opImmTable = some row.2 := lookupKey_of_mem (by decide) hrow
  exact ⟨encode_of_opImmRow hfound, fun _ h3 hm => (decodeWord_of_opImm hm).trans (decodeOpImm_of_row (h3 ▸ hfound))⟩

theorem encodedI_of_loadTable : ∀ row ∈ loadTable, EncodedI row.1 0b0000011#7 row.2 := by
  have hword : ∀ row ∈ loadTable, ∀ rd rs1 imm,
      encode (row.2 rd rs1 imm) = encodeI imm rs1 row.1 rd 0b0000011#7 := by
    simp [loadTable, encode]
  intro row hrow
  refine ⟨hword row hrow, fun w h3 hm => ?_⟩
  rw [decodeWord_of_group rfl rfl hm, decodeLoad_eq_lookup, h3, lookupKey_of_mem (by decide) hrow]
  rfl

/-- R77, decision D19. -/
theorem encodedI_jalr : EncodedI 0b000#3 0b1100111#7 .jalr :=
  ⟨fun _ _ _ => rfl, fun w h3 hm => by rw [decodeWord_of_group rfl rfl hm, decodeJalr, if_pos h3]⟩

theorem encodedS_of_storeTable : ∀ row ∈ storeTable, EncodedS row.1 0b0100011#7 row.2 := by
  have hword : ∀ row ∈ storeTable, ∀ rs1 rs2 imm,
      encode (row.2 rs1 rs2 imm) = encodeS imm rs2 rs1 row.1 0b0100011#7 := by
    simp [storeTable, encode]
  intro row hrow
  refine ⟨hword row hrow, fun w h3 hm => ?_⟩
  rw [decodeWord_of_group rfl rfl hm, decodeStore_eq_lookup, h3, lookupKey_of_mem (by decide) hrow]
  rfl

theorem encodedB_of_branchTable : ∀ row ∈ branchTable, EncodedB row.1 0b1100011#7 row.2 := by
  have hword : ∀ row ∈ branchTable, ∀ rs1 rs2 offset,
      encode (row.2 rs1 rs2 offset) = encodeB offset rs2 rs1 row.1 0b1100011#7 := by
    simp [branchTable, encode]
  intro row hrow
  refine ⟨hword row hrow, fun w h3 hm => ?_⟩
  rw [decodeWord_of_group rfl rfl hm, decodeBranch_eq_lookup, h3, lookupKey_of_mem (by decide) hrow]
  rfl

/-- R79, decision D18. -/
theorem decodeWord_of_fence {w : Word} (h3 : funct3Of w = 0b000#3) (hm : majorOf w = 0b0001111#7) :
    decodeWord w =
      .ok (.fence (w.extractLsb' 28 4) (w.extractLsb' 24 4) (w.extractLsb' 20 4) (rs1Of w) (rdOf w)) := by
  rw [decodeWord_of_group rfl rfl hm, decodeMiscMem, if_pos h3]

/-! #### The operands read back from the word -/

/-- R66: a function code is its funct7 above its funct3. -/
theorem append_funct10_slices (k : BitVec 10) : (k.extractLsb' 3 7 ++ k.extractLsb' 0 3 : BitVec (7 + 3)) = k :=
  (BitVec.extractLsb'_append_extractLsb'_eq_extractLsb' (Nat.zero_add 3).symm).trans BitVec.extractLsb'_eq_self

theorem EncodedR.decodeWord_encode {k : BitVec 10} {m : BitVec 7} {mk : RegIdx → RegIdx → RegIdx → Instr}
    (h : EncodedR k m mk) (rd rs1 rs2 : RegIdx) : decodeWord (encode (mk rd rs1 rs2)) = .ok (mk rd rs1 rs2) := by
  obtain ⟨henc, hdec⟩ := h
  have hk : funct10Of (encode (mk rd rs1 rs2)) = k := by
    rw [henc, funct10Of_encodeR, append_funct10_slices]
  rw [hdec _ hk (by rw [henc, majorOf_encodeR]), henc, rdOf_encodeR, rs1Of_encodeR, rs2Of_encodeR]

theorem EncodedI.decodeWord_encode {f3 : BitVec 3} {m : BitVec 7} {mk : RegIdx → RegIdx → BitVec 12 → Instr}
    (h : EncodedI f3 m mk) (rd rs1 : RegIdx) (imm : BitVec 12) :
    decodeWord (encode (mk rd rs1 imm)) = .ok (mk rd rs1 imm) := by
  obtain ⟨henc, hdec⟩ := h
  rw [henc, hdec _ (funct3Of_encodeI ..) (majorOf_encodeI ..), rdOf_encodeI, rs1Of_encodeI, fieldI_encodeI]

theorem EncodedS.decodeWord_encode {f3 : BitVec 3} {m : BitVec 7} {mk : RegIdx → RegIdx → BitVec 12 → Instr}
    (h : EncodedS f3 m mk) (rs1 rs2 : RegIdx) (imm : BitVec 12) :
    decodeWord (encode (mk rs1 rs2 imm)) = .ok (mk rs1 rs2 imm) := by
  obtain ⟨henc, hdec⟩ := h
  rw [henc, hdec _ (funct3Of_encodeS ..) (majorOf_encodeS ..), rs1Of_encodeS, rs2Of_encodeS, fieldS_encodeS]

/-- The offset must be even: its bit 0 has no place in the word (R70). -/
theorem EncodedB.decodeWord_encode {f3 : BitVec 3} {m : BitVec 7} {mk : RegIdx → RegIdx → BitVec 13 → Instr}
    (h : EncodedB f3 m mk) (rs1 rs2 : RegIdx) {offset : BitVec 13} (he : evenOffset offset = true) :
    decodeWord (encode (mk rs1 rs2 offset)) = .ok (mk rs1 rs2 offset) := by
  obtain ⟨henc, hdec⟩ := h
  rw [henc, hdec _ (funct3Of_encodeB ..) (majorOf_encodeB ..), rs1Of_encodeB, rs2Of_encodeB, fieldB_encodeB _ _ _ _ _ he]

/-- R79: the three fields FENCE keeps are slices of the immediate they were joined to. -/
theorem decodeWord_encode_fence (fm pred succ : BitVec 4) (rs1 rd : RegIdx) :
    decodeWord (encode (.fence fm pred succ rs1 rd)) = .ok (.fence fm pred succ rs1 rd) := by
  have hslice : ∀ (w : Word) (lo : Nat), lo + 4 ≤ 12 →
      w.extractLsb' (20 + lo) 4 = (fieldI w).extractLsb' lo 4 := fun w lo hlo =>
    slice_eq fun i hi => by
      rw [BitVec.getLsbD_extractLsb', Machine.fieldI_getLsbD w _ (by omega), decide_eq_true hi, Bool.true_and,
        Nat.add_assoc]
  have hfm : (fm ++ pred ++ succ : BitVec (4 + 4 + 4)).extractLsb' 8 4 = fm := by
    rw [BitVec.append_assoc]
    exact BitVec.extractLsb'_append_eq_left
  have hpred : (fm ++ pred ++ succ : BitVec (4 + 4 + 4)).extractLsb' 4 4 = pred := by
    rw [BitVec.extractLsb'_append_eq_of_le (by omega)]
    exact BitVec.extractLsb'_append_eq_right
  have hsucc : (fm ++ pred ++ succ : BitVec (4 + 4 + 4)).extractLsb' 0 4 = succ := BitVec.extractLsb'_append_eq_right
  rw [encode, decodeWord_of_fence (funct3Of_encodeI ..) (majorOf_encodeI ..), rs1Of_encodeI, rdOf_encodeI,
    hslice _ 8 (by omega), hslice _ 4 (by omega), hslice _ 0 (by omega), fieldI_encodeI, hfm, hpred, hsucc]

/-! #### Store immediates -/

/-- R69: the sign bit of the field, its bit 11, is `inst[31]`, which sign extension repeats. -/
theorem immS_getLsbD (w : Word) (k : Nat) (hk : k < 32) :
    (immS w).getLsbD k = (if k < 5 then w.getLsbD (7 + k) else if k < 11 then w.getLsbD (20 + k) else w.getLsbD 31) := by
  rw [immS, sext32_getLsbD _ _ hk]
  split
  · rw [fieldS_getLsbD w k (by omega)]
    split
    · rfl
    · split
      · rfl
      · rw [show k = 11 by omega]
  · rw [fieldS_getLsbD w 11 (by omega)]
    simp (disch := omega) only [if_neg]

end Sys2Proof

/-! ### Encoding: DecodeOfEncodeIsTheInstruction, EncodeOfDecodeIsTheWord, StoreImmediateGathersItsBits -/

namespace Sys2Proof.Proofs

/-- Settles O13: by format; the fields that select the instruction decide its group and its row, and every operand is
read back from its own field. That a row stands in its table is shown by walking down the table to it
(`repeat constructor`). -/
theorem decodeOfEncodeIsTheInstruction : Obligations.DecodeOfEncodeIsTheInstruction := by
  have hop := fun row hrow => (encodedR_of_opTable row hrow).decodeWord_encode
  have hshift := fun row hrow => (encodedR_of_shiftTable row hrow).decodeWord_encode
  have hopImm := fun row hrow => (encodedI_of_opImmTable row hrow).decodeWord_encode
  have hload := fun row hrow => (encodedI_of_loadTable row hrow).decodeWord_encode
  have hstore := fun row hrow => (encodedS_of_storeTable row hrow).decodeWord_encode
  have hbranch := fun row hrow => (encodedB_of_branchTable row hrow).decodeWord_encode
  intro i hwf
  cases i with
  | add rd rs1 rs2 | sub rd rs1 rs2 | sll rd rs1 rs2 | slt rd rs1 rs2 | sltu rd rs1 rs2 | xor rd rs1 rs2
  | srl rd rs1 rs2 | sra rd rs1 rs2 | or rd rs1 rs2 | and rd rs1 rs2 | mul rd rs1 rs2 | mulh rd rs1 rs2
  | mulhsu rd rs1 rs2 | mulhu rd rs1 rs2 | div rd rs1 rs2 | divu rd rs1 rs2 | rem rd rs1 rs2 | remu rd rs1 rs2 =>
    exact hop (_, _) (by repeat constructor) rd rs1 rs2
  | slli rd rs1 shamt | srli rd rs1 shamt | srai rd rs1 shamt =>
    exact hshift (_, _) (by repeat constructor) rd rs1 shamt
  | addi rd rs1 imm | slti rd rs1 imm | sltiu rd rs1 imm | xori rd rs1 imm | ori rd rs1 imm | andi rd rs1 imm =>
    exact hopImm (_, _) (by repeat constructor) rd rs1 imm
  | lb rd rs1 imm | lh rd rs1 imm | lw rd rs1 imm | lbu rd rs1 imm | lhu rd rs1 imm =>
    exact hload (_, _) (by repeat constructor) rd rs1 imm
  | sb rs1 rs2 imm | sh rs1 rs2 imm | sw rs1 rs2 imm =>
    exact hstore (_, _) (by repeat constructor) rs1 rs2 imm
  | beq rs1 rs2 offset | bne rs1 rs2 offset | blt rs1 rs2 offset | bge rs1 rs2 offset | bltu rs1 rs2 offset
  | bgeu rs1 rs2 offset => exact hbranch (_, _) (by repeat constructor) rs1 rs2 hwf
  | jalr rd rs1 imm => exact encodedI_jalr.decodeWord_encode rd rs1 imm
  | lui rd imm => rw [encode, decodeWord_of_lui (majorOf_encodeU ..), rdOf_encodeU, fieldU_encodeU]
  | auipc rd imm => rw [encode, decodeWord_of_group rfl rfl (majorOf_encodeU ..), rdOf_encodeU, fieldU_encodeU]
  | jal rd offset => rw [encode, decodeWord_of_group rfl rfl (majorOf_encodeJ ..), rdOf_encodeJ, fieldJ_encodeJ _ _ _ hwf]
  | fence fm pred succ rs1 rd => exact decodeWord_encode_fence fm pred succ rs1 rd
  | system f rs1 g rd =>
    rw [encode, decodeWord_of_group rfl rfl (majorOf_encodeI ..), fieldI_encodeI, rs1Of_encodeI, funct3Of_encodeI,
      rdOf_encodeI]

/-- Settles O14: group by group, the format is rebuilt from the word's own fields. -/
theorem encodeOfDecodeIsTheWord : Obligations.EncodeOfDecodeIsTheWord := fun _ _ => encode_of_decodeWord

/-- Settles O12: the gathered field, then its extension. -/
theorem storeImmediateGathersItsBits : Obligations.StoreImmediateGathersItsBits := immS_getLsbD

end Sys2Proof.Proofs

/-! ### What every step keeps: the memory's form, the alignment of the pc, the form of a fault record -/

namespace Sys2Proof.Machine

open Sys2Proof.Safety

/-! #### The invariant's memory clause under writes -/

theorem memoryOk_iff {s : State} :
    memoryOk s = true ↔ s.mem.wf = true ∧ ∀ c ∈ s.mem, reachable s.routes c.1 = true := by
  simp only [memoryOk, Bool.and_eq_true, List.all_eq_true]

theorem memoryOk_congr {s t : State} (hm : t.mem = s.mem) (hr : t.routes = s.routes) : memoryOk t = memoryOk s := by
  rw [memoryOk, memoryOk, hm, hr]

/-- A byte is put only at a location that the address leads to. -/
theorem memoryOk_writeByte {s : State} (a : Word) (b : Byte) (h : memoryOk s = true) :
    memoryOk (writeByte s a b) = true := by
  obtain ⟨hwf, hreach⟩ := memoryOk_iff.1 h
  rcases writeByte_cases s a b with ⟨k, hk, e⟩ | ⟨-, e⟩
  · refine memoryOk_iff.2 ⟨writeByte_wf a b hwf, fun c hc => ?_⟩
    rw [e, setMem_mem] at hc
    rw [writeByte_routes]
    rcases mem_memPut hc with ⟨rfl, -⟩ | hc
    · exact reachable_of_locationOf hk
    · exact hreach c hc
  · rwa [e]

theorem memoryOk_writeBytes {s : State} (a : Word) (bs : List Byte) (h : memoryOk s = true) :
    memoryOk (writeBytes s a bs) = true := by
  induction bs generalizing s a with
  | nil => exact h
  | cons b bs ih => exact ih _ (memoryOk_writeByte a b h)

/-! #### What an effect keeps -/

theorem Effect.routes_eq {i : Instr} {s t : State} (he : Effect i s t) : t.routes = s.routes := by
  cases he with
  | writes rd v hd hs ha => rw [setPc_routes, writeReg_routes]
  | goes hd hs ha => rfl
  | stores a bs hd hs hm hn => rw [setPc_routes, writeBytes_routes]
  | raises r hr hp hi => rfl

theorem Effect.memoryOk {i : Instr} {s t : State} (he : Effect i s t) (h : Safety.memoryOk s = true) :
    Safety.memoryOk t = true := by
  cases he with
  | writes rd v hd hs ha => exact (memoryOk_congr (by simp) (by simp)).trans h
  | goes hd hs ha => exact h
  | stores a bs hd hs hm hn => exact memoryOk_writeBytes a bs h
  | raises r hr hp hi => exact h

/-- R30: an instruction goes to pc + 4 or to a target whose alignment it has checked. -/
theorem Effect.pc_aligned {i : Instr} {s t : State} (he : Effect i s t) (h : alignedAddress s.pc) :
    alignedAddress t.pc := by
  have hnext : nextPc s i = s.pc + 4#32 ∨ alignedAddress (nextPc s i) → alignedAddress (nextPc s i) := by
    rintro (e | ha)
    · rw [e]; exact alignedAddress_add_four h
    · exact ha
  cases he with
  | writes rd v hd hs ha => exact hnext ha
  | goes hd hs ha => exact hnext ha
  | stores a bs hd hs hm hn => exact alignedAddress_add_four h
  | raises r hr hp hi => exact h

/-- R262: from a Running core an effect raises a fault, with a record of R264's form, or stays Running. -/
theorem Effect.raises_or_running {i : Instr} {s t : State} (he : Effect i s t) (hs : s.status = .running) :
    (∃ r, t = raise s r ∧ recordOk r = true ∧ r.pc = s.pc ∧ r.inst = some (encode i)) ∨ t.status = .running := by
  cases he with
  | writes rd v hd hspan ha => exact .inr (by rw [setPc_status, writeReg_status, hs])
  | goes hd hspan ha => exact .inr hs
  | stores a bs hd hspan hm hn => exact .inr (by rw [setPc_status, writeBytes_status, hs])
  | raises r hr hp hi => exact .inl ⟨r, rfl, hr, hp, hi⟩

/-! #### What a step can do -/

/-- R106, R109, R262, R264: a step either changes the status alone, to a record that describes the fault, or is the effect
of an instruction at a 4-aligned pc that raised nothing. -/
theorem step_raises_or_runs {s t : State} (h : step s = .next t) :
    (∃ r, t = raise s r ∧ recordOk r = true ∧ r.pc = s.pc ∧
      r.inst = if alignedAddress s.pc ∧ allMapped s s.pc 4 then some (wordAtPc s) else none) ∨
    (alignedAddress s.pc ∧ t.status = .running ∧ ∃ i, Effect i s t) := by
  obtain ⟨hs, ⟨ha, rfl⟩ | ⟨ha, k, ⟨hk, hu, -⟩, rfl⟩ | ⟨ha, hm, -, rfl⟩ | ⟨ha, hm, i, hd, he⟩⟩ := step_cases h
  · exact .inl ⟨_, rfl, rfl, rfl, (if_neg fun hc => ha hc.1).symm⟩
  · have hnot : ¬ allMapped s s.pc 4 := fun hm => by simp [hm k hk] at hu
    exact .inl ⟨_, rfl, rfl, rfl, (if_neg fun hc => hnot hc.2).symm⟩
  · exact .inl ⟨_, rfl, rfl, rfl, (if_pos ⟨ha, hm⟩).symm⟩
  · have heff : Effect i s t := effect_of_exec he
    rcases heff.raises_or_running hs with ⟨r, rfl, hr, hp, hi⟩ | ht
    · refine .inl ⟨r, rfl, hr, hp, ?_⟩
      rw [hi, (encode_of_decodeWord hd).1, if_pos ⟨ha, hm⟩]
    · exact .inr ⟨ha, ht, i, heff⟩

/-- A step that ends Faulted is a raise, whose record describes the fault. -/
theorem raise_of_step_faulted {s t : State} {r : FaultRecord} (h : step s = .next t) (ht : t.status = .faulted r) :
    t = raise s r ∧ recordOk r = true ∧ r.pc = s.pc ∧
      r.inst = if alignedAddress s.pc ∧ allMapped s s.pc 4 then some (wordAtPc s) else none := by
  rcases step_raises_or_runs h with ⟨q, rfl, hq⟩ | ⟨-, hrun, -⟩
  · cases ht
    exact ⟨rfl, hq⟩
  · simp [hrun] at ht

end Sys2Proof.Machine

/-! ### Every step: EveryStepKeepsTheInvariant, PcStaysAligned, NoStepChangesTheRoutes, FaultsArePrecise,
FaultRecordDescribesTheFault, ResetSatisfiesTheInvariant -/

namespace Sys2Proof.Proofs

open Sys2Proof.Machine Sys2Proof.Safety

/-- Settles O23: a raise keeps memory and pc and leaves a good record; an effect that raises nothing keeps the memory's
form and the alignment. -/
theorem everyStepKeepsTheInvariant : Obligations.EveryStepKeepsTheInvariant := by
  rintro s t ⟨hmem, hpc, -⟩ h
  rcases step_raises_or_runs h with ⟨r, rfl, hr, hrpc, -⟩ | ⟨-, hrun, i, he⟩
  · exact ⟨hmem, hpc, by simp [statusOk, hr, hrpc]⟩
  · exact ⟨he.memoryOk hmem, he.pc_aligned hpc, by simp [statusOk, hrun]⟩

/-- Settles O24: a step that goes on has fetched, so it was at a multiple of 4, and its effect ends at one. -/
theorem pcStaysAligned : Obligations.PcStaysAligned := by
  intro s t h hrun
  rcases step_raises_or_runs h with ⟨r, rfl, -⟩ | ⟨ha, -, i, he⟩
  · simp at hrun
  · exact ⟨ha, he.pc_aligned ha⟩

/-- Settles O25: by what a step can do. -/
theorem noStepChangesTheRoutes : Obligations.NoStepChangesTheRoutes := by
  intro s t h
  rcases step_raises_or_runs h with ⟨r, rfl, -⟩ | ⟨-, -, i, he⟩
  · rfl
  · exact he.routes_eq

/-- Settles O21: a step that ends Faulted is a raise, and a raise sets the status alone. -/
theorem faultsArePrecise : Obligations.FaultsArePrecise := fun _ _ _ h ht => (raise_of_step_faulted h ht).1

/-- Settles O22: the record of a raise, whose word is the fetched one. -/
theorem faultRecordDescribesTheFault : Obligations.FaultRecordDescribesTheFault := fun _ _ _ h ht =>
  (raise_of_step_faulted h ht).2

/-- Settles O3: no byte is listed at reset, and `boot` of the standard parameters evaluates to it. -/
theorem resetSatisfiesTheInvariant : Obligations.ResetSatisfiesTheInvariant :=
  ⟨⟨rfl, rfl, rfl⟩, by decide, rfl, readReg_zero _⟩

end Sys2Proof.Proofs

/-! ### Fetch and dispatch: when a word raises UnimplementedInstruction -/

namespace Sys2Proof.Machine

open Sys2Proof.Safety Sys2Proof.Claims

/-- A Running core has a next state (R100, R109). -/
theorem step_total {s : State} (hs : s.status = .running) : ∃ t, step s = .next t := by
  cases hf : fetch s with
  | error r => exact ⟨_, step_fetchFault hs hf⟩
  | ok w =>
    cases hd : decodeWord w with
    | error e => exact ⟨_, step_unimplemented hs hf hd⟩
    | ok i =>
      obtain ⟨t, ht, -⟩ := exec_effect i s
      exact ⟨t, (step_runs hs hf hd).trans ht⟩

/-- R105, log entry 12: a word under the verdict raises, whether no row selects it or its own effect is to raise; the word
of the record is the fetched one, since decoding drops no bit. -/
theorem step_of_verdictUnimplemented {s : State} {w : Word} (hs : s.status = .running) (hf : fetch s = .ok w)
    (hv : verdictUnimplemented w) : step s = .next (raise s (unimplementedRecord s.pc w)) := by
  rcases hv with ⟨e, hd⟩ | ⟨rd, rs1, rs2, hd⟩ | ⟨f, rs1, g, rd, hd⟩
  · exact step_unimplemented hs hf hd
  · rw [step_runs hs hf hd, ← (encode_of_decodeWord hd).1]
    rfl
  · rw [step_runs hs hf hd, ← (encode_of_decodeWord hd).1]
    rfl

/-- The verdict as a test of the decoder's answer (log entry 12); `verdictUnimplemented_iff` ties it to the statement's. -/
def raisesUnimplemented : Except Reject Instr → Bool
  | .error _ => true
  | .ok (.mulhsu _ _ _) => true
  | .ok (.system _ _ _ _) => true
  | .ok _ => false

theorem verdictUnimplemented_iff (w : Word) : verdictUnimplemented w ↔ raisesUnimplemented (decodeWord w) = true := by
  unfold verdictUnimplemented
  cases decodeWord w with
  | error e => simp [raisesUnimplemented]
  | ok i => cases i <;> simp [raisesUnimplemented]

/-! The verdict of each group is decided by funct3, and in OP and OP-IMM by funct7 too (R75 to R79). -/

theorem funct10Of_eq_iff (w : Word) (k : BitVec 10) :
    funct10Of w = k ↔ funct7Of w = k.extractLsb' 3 7 ∧ funct3Of w = k.extractLsb' 0 3 := by
  refine ⟨fun h => ⟨h ▸ funct7Of_eq_slice w, h ▸ funct3Of_eq_slice w⟩, fun ⟨h7, h3⟩ => ?_⟩
  rw [funct10Of, h7, h3, append_funct10_slices]

theorem funct3_cases : ∀ f3 : BitVec 3, f3 = 0 ∨ f3 = 1 ∨ f3 = 2 ∨ f3 = 3 ∨ f3 = 4 ∨ f3 = 5 ∨ f3 = 6 ∨ f3 = 7 := by
  decide

theorem raisesUnimplemented_decodeOp (w : Word) : raisesUnimplemented (decodeOp w) = true ↔
    ¬ (funct7Of w = 0b0000000#7 ∨ funct7Of w = 0b0000001#7 ∨
      (funct7Of w = 0b0100000#7 ∧ (funct3Of w = 0b000#3 ∨ funct3Of w = 0b101#3))) ∨
    (funct7Of w = 0b0000001#7 ∧ funct3Of w = 0b010#3) := by
  simp only [decodeOp_eq_lookup, opTable, List.cons_append, List.nil_append, elim_lookupKey_cons, elim_lookupKey_nil,
    funct10Of_eq_iff, apply_ite raisesUnimplemented]
  simp only [raisesUnimplemented]
  generalize funct7Of w = f7
  rcases funct3_cases (funct3Of w) with h | h | h | h | h | h | h | h
  all_goals
    rw [h]
    revert f7
    decide

theorem raisesUnimplemented_decodeOpImm (w : Word) : raisesUnimplemented (decodeOpImm w) = true ↔
    funct3Of w = 0b001#3 ∧ funct7Of w ≠ 0b0000000#7 ∨
    funct3Of w = 0b101#3 ∧ funct7Of w ≠ 0b0000000#7 ∧ funct7Of w ≠ 0b0100000#7 := by
  simp only [decodeOpImm, funct10Of_eq_iff, apply_ite raisesUnimplemented]
  simp only [raisesUnimplemented]
  generalize funct7Of w = f7
  rcases funct3_cases (funct3Of w) with h | h | h | h | h | h | h | h
  all_goals
    rw [h]
    revert f7
    decide

theorem raisesUnimplemented_decodeBranch (w : Word) : raisesUnimplemented (decodeBranch w) = true ↔
    funct3Of w = 0b010#3 ∨ funct3Of w = 0b011#3 := by
  simp only [decodeBranch, apply_ite raisesUnimplemented]
  simp only [raisesUnimplemented]
  generalize funct3Of w = f3
  revert f3
  decide

theorem raisesUnimplemented_decodeLoad (w : Word) : raisesUnimplemented (decodeLoad w) = true ↔
    funct3Of w = 0b011#3 ∨ funct3Of w = 0b110#3 ∨ funct3Of w = 0b111#3 := by
  simp only [decodeLoad, apply_ite raisesUnimplemented]
  simp only [raisesUnimplemented]
  generalize funct3Of w = f3
  revert f3
  decide

theorem raisesUnimplemented_decodeStore (w : Word) : raisesUnimplemented (decodeStore w) = true ↔
    3 ≤ (funct3Of w).toNat := by
  simp only [decodeStore, apply_ite raisesUnimplemented]
  simp only [raisesUnimplemented]
  generalize funct3Of w = f3
  revert f3
  decide

theorem raisesUnimplemented_decodeJalr (w : Word) : raisesUnimplemented (decodeJalr w) = true ↔
    funct3Of w ≠ 0b000#3 := by
  rw [decodeJalr]
  split <;> simp_all [raisesUnimplemented]

theorem raisesUnimplemented_decodeMiscMem (w : Word) : raisesUnimplemented (decodeMiscMem w) = true ↔
    funct3Of w ≠ 0b000#3 := by
  rw [decodeMiscMem]
  split <;> simp_all [raisesUnimplemented]

/-- R80: its conditions, on the fields of the word, are the verdict; in each group one clause of R80 is left, the one that
says which function codes the group lacks. -/
theorem conditionsOfR80_iff (w : Word) : conditionsOfR80 w ↔ raisesUnimplemented (decodeWord w) = true := by
  have hlow : w.extractLsb' 0 2 = lowBitsOf w := rfl
  have hop : w.extractLsb' 2 5 = opcodeOf w := rfl
  have h3 : w.extractLsb' 12 3 = funct3Of w := rfl
  have h7 : w.extractLsb' 25 7 = funct7Of w := rfl
  rw [conditionsOfR80, hlow, hop, h3, h7, decodeWord]
  split
  next hl =>
    rw [decodeGroup_eq_lookup]
    cases hd : lookupKey (opcodeOf w) groupTable with
    | none =>
      have hno := lookupKey_eq_none hd
      simp only [groupTable, List.map_cons, List.map_nil, List.mem_cons, List.not_mem_nil, or_false, not_or] at hno
      simp [groups, hno, raisesUnimplemented]
    | some d =>
      have hrow := lookupKey_mem hd
      simp only [groupTable, List.mem_cons, Prod.mk.injEq, List.not_mem_nil, or_false] at hrow
      rw [Option.elim_some]
      rcases hrow with ⟨ho, rfl⟩ | ⟨ho, rfl⟩ | ⟨ho, rfl⟩ | ⟨ho, rfl⟩ | ⟨ho, rfl⟩ | ⟨ho, rfl⟩ | ⟨ho, rfl⟩ | ⟨ho, rfl⟩ |
        ⟨ho, rfl⟩ | ⟨ho, rfl⟩ | ⟨ho, rfl⟩
      · rw [raisesUnimplemented_decodeLoad]; simp [hl, ho, groups]
      · rw [raisesUnimplemented_decodeMiscMem]; simp [hl, ho, groups]
      · rw [raisesUnimplemented_decodeOpImm]; simp [hl, ho, groups]
      · simp [hl, ho, groups, raisesUnimplemented]
      · rw [raisesUnimplemented_decodeStore]; simp [hl, ho, groups]
      · rw [raisesUnimplemented_decodeOp]; simp [hl, ho, groups]
      · simp [hl, ho, groups, raisesUnimplemented]
      · rw [raisesUnimplemented_decodeBranch]; simp [hl, ho, groups]
      · rw [raisesUnimplemented_decodeJalr]; simp [hl, ho, groups]
      · simp [hl, ho, groups, raisesUnimplemented]
      · simp [hl, ho, groups, raisesUnimplemented]
  next hl => simp [hl, raisesUnimplemented]

end Sys2Proof.Machine

/-! ### The cycle: UnimplementedVerdictIsExactlyItsConditions, DispatchRaisesOrRunsTheInstruction,
StepRaisesTheFetchFaults, StepIsTotalOnRunningAndNoneWhenFaulted, StepRunsTheDecodedInstruction, SelfJumpIsAFixedPoint,
SnapshotShowsPcRegistersAndRecord -/

namespace Sys2Proof.Proofs

open Sys2Proof.Machine Sys2Proof.Safety Sys2Proof.Claims

/-- Settles O15: both sides are the same test of the decoder's answer, and a word under it raises. -/
theorem unimplementedVerdictIsExactlyItsConditions : Obligations.UnimplementedVerdictIsExactlyItsConditions := by
  intro w
  have hiff : verdictUnimplemented w ↔ conditionsOfR80 w :=
    (verdictUnimplemented_iff w).trans (conditionsOfR80_iff w).symm
  exact ⟨hiff, fun s hs hf hc => ⟨_, step_of_verdictUnimplemented hs hf (hiff.2 hc), faultsWith_raise s _⟩⟩

/-- Settles O18: outside the verdict some row selects the word, and the step is its effect. -/
theorem dispatchRaisesOrRunsTheInstruction : Obligations.DispatchRaisesOrRunsTheInstruction := by
  intro s w hs hf
  refine ⟨fun hv => ⟨_, step_of_verdictUnimplemented hs hf hv, faultsWith_raise s _⟩, fun hv => ?_⟩
  cases hd : decodeWord w with
  | error e => exact absurd (.inl ⟨e, hd⟩) hv
  | ok i => exact ⟨i, rfl, step_runs hs hf hd⟩

/-- Settles O19: the step raises whatever fetching reports. -/
theorem stepRaisesTheFetchFaults : Obligations.StepRaisesTheFetchFaults := fun s hs =>
  ⟨fun ha => ⟨_, step_fetchFault hs (fetch_misaligned ha), faultsWith_raise s _⟩,
    fun ha _ hk => ⟨_, step_fetchFault hs (fetch_unmapped ha hk), faultsWith_raise s _⟩⟩

/-- Settles O20: fetching, decoding and every effect answer something. -/
theorem stepIsTotalOnRunningAndNoneWhenFaulted : Obligations.StepIsTotalOnRunningAndNoneWhenFaulted := fun _ =>
  ⟨step_total, fun _ => step_faulted⟩

/-- Settles O17: the fetched word is that of the four bytes at the pc. -/
theorem stepRunsTheDecodedInstruction : Obligations.StepRunsTheDecodedInstruction := fun _ _ hs ha hm hd =>
  step_runs hs (fetch_mapped ha hm) hd

/-- Settles O32: the word decodes to JAL with x0 and offset 0, which links nothing and goes to its own address. -/
theorem selfJumpIsAFixedPoint : Obligations.SelfJumpIsAFixedPoint := by
  intro s hs ha hm h0 h1 h2 h3
  have hw : wordAtPc s = 0x0000006F#32 := by
    rw [wordAtPc, h0, h1, h2, h3]
    rfl
  have hd : decodeWord (wordAtPc s) = .ok (.jal 0 0) := by
    rw [hw]
    decide
  have htarget : jalTarget s 0 = s.pc := BitVec.add_zero s.pc
  rw [step_runs hs (fetch_mapped ha hm) hd, exec, execJal, htarget, jumpAndLink_aligned ha]
  exact congrArg (fun u => Host.Outcome.next (setPc u s.pc)) (writeReg_zero s _)

/-- Settles O26: each part of the snapshot is read off the state. -/
theorem snapshotShowsPcRegistersAndRecord : Obligations.SnapshotShowsPcRegistersAndRecord := by
  intro s
  refine ⟨rfl, fun i => ?_, fun hs => by simp [snapshot, hs], fun r hs => by simp [snapshot, hs]⟩
  simp [snapshot]

end Sys2Proof.Proofs

/-! ### The match and mask of an instruction in each format -/

namespace Sys2Proof.Machine

open Sys2Proof.Safety Sys2Proof.Claims

/-- The match and mask of an instruction that funct3 and the major field select, whatever operands it keeps. -/
theorem selects_of_funct3_major {f3 : BitVec 3} {m : BitVec 7} {mk : Word → Instr}
    (henc : ∀ w, funct3Of (encode (mk w)) = f3 ∧ majorOf (encode (mk w)) = m)
    (hdec : ∀ w, funct3Of w = f3 → majorOf w = m → decodeWord w = .ok (mk w)) :
    selects (encodeI 0 0 f3 0 m) 0x0000707F mk := by
  intro w
  refine Iff.trans ⟨fun h => ?_, fun ⟨h3, hm⟩ => hdec w h3 hm⟩ (mask_funct3 w f3 m).symm
  rw [← (encode_of_decodeWord h).1]
  exact henc w

theorem selects_of_encodedR {f7 : BitVec 7} {f3 : BitVec 3} {m : BitVec 7} {mk : RegIdx → RegIdx → RegIdx → Instr}
    (h : EncodedR (f7 ++ f3) m mk) :
    selects (encodeR f7 0 0 f3 0 m) 0xFE00707F (fun w => mk (rdOf w) (rs1Of w) (rs2Of w)) := by
  obtain ⟨henc, hdec⟩ := h
  intro w
  refine Iff.trans ⟨fun hw => ?_, fun ⟨h7, h3, hm⟩ => hdec w ?_ hm⟩ (mask_funct10 w f7 f3 m).symm
  · have hword := (encode_of_decodeWord hw).1
    rw [henc, BitVec.extractLsb'_append_eq_left, BitVec.extractLsb'_append_eq_right] at hword
    exact fields_of_encodeR hword
  · rw [funct10Of, h7, h3]

theorem selects_of_encodedI {f3 : BitVec 3} {m : BitVec 7} {mk : RegIdx → RegIdx → BitVec 12 → Instr}
    (h : EncodedI f3 m mk) : selects (encodeI 0 0 f3 0 m) 0x0000707F (fun w => mk (rdOf w) (rs1Of w) (fieldI w)) :=
  selects_of_funct3 h.1 h.2

theorem selects_of_encodedS {f3 : BitVec 3} {m : BitVec 7} {mk : RegIdx → RegIdx → BitVec 12 → Instr}
    (h : EncodedS f3 m mk) : selects (encodeI 0 0 f3 0 m) 0x0000707F (fun w => mk (rs1Of w) (rs2Of w) (fieldS w)) :=
  selects_of_funct3_major
    (fun _ => by rw [h.1]; exact ⟨funct3Of_encodeS .., majorOf_encodeS ..⟩) h.2

theorem selects_of_encodedB {f3 : BitVec 3} {m : BitVec 7} {mk : RegIdx → RegIdx → BitVec 13 → Instr}
    (h : EncodedB f3 m mk) : selects (encodeI 0 0 f3 0 m) 0x0000707F (fun w => mk (rs1Of w) (rs2Of w) (fieldB w)) :=
  selects_of_funct3_major
    (fun _ => by rw [h.1]; exact ⟨funct3Of_encodeB .., majorOf_encodeB ..⟩) h.2

/-! ### The form of each shape: what the statements about one instruction ask, from its row and its operation -/

/-- A shift of OP-IMM has the whole shift form, for any relation that its operation meets. -/
theorem shiftForm_of_shiftImm {f7 : BitVec 7} {f3 : BitVec 3} {mk : RegIdx → RegIdx → BitVec 5 → Instr}
    {op : Word → BitVec 5 → Word} {result : Word → Nat → Word → Prop}
    (hrow : ((f7 ++ f3 : BitVec (7 + 3)), mk) ∈ shiftTable)
    (hexec : ∀ rd rs1 shamt s, exec (mk rd rs1 shamt) s = shiftImm op rd rs1 shamt s)
    (hop : ∀ a n, result a n.toNat (op a n)) :
    shiftForm (encodeR f7 0 0 f3 0 0b0010011#7) 0xFE00707F mk result :=
  ⟨selects_of_encodedR (encodedR_of_shiftTable _ hrow), fun rd rs1 shamt s =>
    ⟨_, _, hexec rd rs1 shamt s, writesRegister_writeReg s rd _, hop _ _⟩⟩

/-- A branch has the whole branch form, for the relation that its comparison decides. -/
theorem branchForm_of_branch {f3 : BitVec 3} {mk : RegIdx → RegIdx → BitVec 13 → Instr} {taken : Word → Word → Bool}
    {holds : Word → Word → Prop} (hrow : (f3, mk) ∈ branchTable)
    (hexec : ∀ rs1 rs2 offset s,
      exec (mk rs1 rs2 offset) s = branch taken (encode (mk rs1 rs2 offset)) rs1 rs2 offset s)
    (htaken : ∀ a b, taken a b = true ↔ holds a b) :
    branchForm (encodeI 0 0 f3 0 0b1100011#7) 0x0000707F mk holds := by
  refine ⟨selects_of_encodedB (encodedB_of_branchTable _ hrow), fun rs1 rs2 offset s => ?_⟩
  rw [hexec]
  refine ⟨fun hnot => ?_, fun h ha => ?_, fun h ha => ?_⟩
  · have hfalse : taken (readReg s rs1) (readReg s rs2) = false := Bool.eq_false_iff.2 (mt (htaken _ _).1 hnot)
    exact ⟨_, branch_notTaken hfalse, goesTo_setPc s _⟩
  · exact ⟨_, branch_taken ((htaken _ _).2 h) ha, goesTo_setPc s _⟩
  · exact ⟨_, branch_misaligned ((htaken _ _).2 h) ha, faultsWith_raise s _⟩

/-- The bytes at consecutive addresses, each by its offset. -/
theorem readBytes_eq_map (s : State) (a : Word) (n : Nat) :
    readBytes s a n = (List.range n).map fun k => readByte s (a + BitVec.ofNat 32 k) := by
  refine List.ext_getElem (by simp [readBytes_length]) fun k h _ => ?_
  rw [readBytes_getElem, List.getElem_map, List.getElem_range]

/-- A load has the whole load form, for any relation that its extension of the little-endian number meets. -/
theorem loadForm_of_load {f3 : BitVec 3} {mk : RegIdx → RegIdx → BitVec 12 → Instr} {bits : Nat}
    {extend : BitVec bits → Word} {result : (Nat → Byte) → Word → Prop} (hrow : (f3, mk) ∈ loadTable)
    (hexec : ∀ rd rs1 imm s, exec (mk rd rs1 imm) s = load bits extend (encode (mk rd rs1 imm)) rd rs1 imm s)
    (hvalue : ∀ b : Nat → Byte, result b (extend (BitVec.ofNat bits (leNat ((List.range (bits / 8)).map b))))) :
    loadForm (encodeI 0 0 f3 0 0b0000011#7) 0x0000707F mk (bits / 8) result := by
  refine ⟨selects_of_encodedI (encodedI_of_loadTable _ hrow), fun rd rs1 imm s => ?_⟩
  rw [hexec]
  refine ⟨fun hm => ⟨_, _, load_mapped hm, writesRegister_writeReg s rd _, ?_⟩,
    fun k hk => ⟨_, load_unmapped hk, faultsWith_raise s _⟩⟩
  rw [readBytes_eq_map]
  exact hvalue _

/-- The low bytes of a word are the bytes of the word. -/
theorem leBytes_extractLow_getElem {bits : Nat} (v : Word) (k : Nat)
    (h : k < (leBytes (v.extractLsb' 0 bits)).length) :
    (leBytes (v.extractLsb' 0 bits))[k] = v.extractLsb' (8 * k) 8 := by
  rw [leBytes_length] at h
  rw [leBytes_getElem]
  refine BitVec.eq_of_getLsbD_eq fun i hi => ?_
  simp only [BitVec.getLsbD_extractLsb', Nat.zero_add]
  rw [decide_eq_true (show 8 * k + i < bits by omega), Bool.true_and]

/-- A store has the whole store form. -/
theorem storeForm_of_store {f3 : BitVec 3} {mk : RegIdx → RegIdx → BitVec 12 → Instr} {bits : Nat}
    (hrow : (f3, mk) ∈ storeTable)
    (hexec : ∀ rs1 rs2 imm s, exec (mk rs1 rs2 imm) s = store bits (encode (mk rs1 rs2 imm)) rs1 rs2 imm s) :
    storeForm (encodeI 0 0 f3 0 0b0100011#7) 0x0000707F mk (bits / 8) := by
  refine ⟨selects_of_encodedS (encodedS_of_storeTable _ hrow), fun rs1 rs2 imm s hm => ?_⟩
  rw [hexec]
  refine ⟨_, store_mapped hm, ?_⟩
  have hstored := storesBytes_writeBytes s (readReg s rs1 + sext32 imm) _ _
    (leBytes_extractLow_getElem (bits := bits) (readReg s rs2))
  rwa [leBytes_length] at hstored

theorem storeFaultForm_of_store {mk : RegIdx → RegIdx → BitVec 12 → Instr} {bits : Nat}
    (hexec : ∀ rs1 rs2 imm s, exec (mk rs1 rs2 imm) s = store bits (encode (mk rs1 rs2 imm)) rs1 rs2 imm s) :
    storeFaultForm mk (bits / 8) := by
  intro rs1 rs2 imm s k hk
  rw [hexec]
  exact ⟨_, store_unmapped hk, faultsWith_raise s _⟩

/-! ### The operations as numbers -/

/-- R122. -/
theorem shiftLeft_toNat (a : Word) (n : BitVec 5) : (shiftLeft a n).toNat = a.toNat * 2 ^ n.toNat % 2 ^ 32 := by
  rw [shiftLeft, BitVec.toNat_shiftLeft, Nat.shiftLeft_eq]

/-- R127: the sign fill is the floor of the signed number. -/
theorem shiftRightSign_toInt (a : Word) (n : BitVec 5) : (shiftRightSign a n).toInt = a.toInt / 2 ^ n.toNat := by
  rw [shiftRightSign, BitVec.toInt_sshiftRight, Int.shiftRight_eq_div_pow]
  norm_cast

/-- R191: clearing bit 0 is twice the half. -/
theorem clearBitZero_toNat (a : Word) : (a &&& 0xFFFFFFFE#32).toNat = a.toNat / 2 * 2 := by
  have hmask : ∀ i < 32, (0xFFFFFFFE#32).getLsbD i = decide (1 ≤ i) := by decide
  have hshift : a &&& 0xFFFFFFFE#32 = a >>> 1 <<< 1 := by
    refine BitVec.eq_of_getLsbD_eq fun i hi => ?_
    rw [BitVec.getLsbD_and, hmask i hi, BitVec.getLsbD_shiftLeft, BitVec.getLsbD_ushiftRight]
    by_cases h1 : 1 ≤ i
    · simp [hi, h1, show i ≠ 0 by omega]
    · simp [show i = 0 by omega]
  have ha := a.isLt
  rw [hshift, BitVec.toNat_shiftLeft, BitVec.toNat_ushiftRight, Nat.shiftLeft_eq, Nat.shiftRight_eq_div_pow]
  omega

/-! #### Division (decisions D11, D12, D13) -/

theorem toInt_eq_zero_iff (b : Word) : b.toInt = 0 ↔ b.toNat = 0 := by
  rw [← BitVec.toInt_zero (w := 32), BitVec.toInt_inj, ← BitVec.toNat_inj, BitVec.toNat_ofNat]

theorem divOverflows_iff (a b : Word) : divOverflows a b = true ↔ a.toInt = -2 ^ 31 ∧ b.toInt = -1 := by
  simp [divOverflows]

theorem divOp_byZero (a : Word) {b : Word} (hb : b.toNat = 0) : divOp a b = 0xFFFFFFFF#32 := by
  rw [divOp, if_pos ((toInt_eq_zero_iff b).2 hb)]

theorem remOp_byZero (a : Word) {b : Word} (hb : b.toNat = 0) : remOp a b = a := by
  rw [remOp, if_pos ((toInt_eq_zero_iff b).2 hb)]

theorem divOp_overflow {a b : Word} (h : a.toInt = -2 ^ 31 ∧ b.toInt = -1) : divOp a b = 0x80000000#32 := by
  rw [divOp, if_neg (by omega), if_pos ((divOverflows_iff a b).2 h)]

theorem remOp_overflow {a b : Word} (h : a.toInt = -2 ^ 31 ∧ b.toInt = -1) : remOp a b = 0#32 := by
  rw [remOp, if_neg (by omega), if_pos ((divOverflows_iff a b).2 h)]

theorem divOp_eq_ofInt {a b : Word} (hb : b.toNat ≠ 0) (ho : ¬ (a.toInt = -2 ^ 31 ∧ b.toInt = -1)) :
    divOp a b = BitVec.ofInt 32 (a.toInt.tdiv b.toInt) := by
  rw [divOp, if_neg (mt (toInt_eq_zero_iff b).1 hb), if_neg (mt (divOverflows_iff a b).1 ho)]

theorem remOp_eq_ofInt {a b : Word} (hb : b.toNat ≠ 0) (ho : ¬ (a.toInt = -2 ^ 31 ∧ b.toInt = -1)) :
    remOp a b = BitVec.ofInt 32 (a.toInt.tmod b.toInt) := by
  rw [remOp, if_neg (mt (toInt_eq_zero_iff b).1 hb), if_neg (mt (divOverflows_iff a b).1 ho), Int.tmod_def]

/-- Outside the overflow the quotient of two signed words is a signed word. -/
theorem divOp_toInt {a b : Word} (hb : b.toNat ≠ 0) (ho : ¬ (a.toInt = -2 ^ 31 ∧ b.toInt = -1)) :
    (divOp a b).toInt = a.toInt.tdiv b.toInt := by
  have hsdiv : divOp a b = a.sdiv b := by
    rw [← BitVec.toInt_inj, divOp_eq_ofInt hb ho, BitVec.toInt_sdiv, BitVec.toInt_ofInt]
  have hne : a ≠ BitVec.intMin 32 ∨ b ≠ -1#32 := by
    by_contra hc
    push Not at hc
    obtain ⟨rfl, rfl⟩ := hc
    exact ho (by decide)
  rw [hsdiv, BitVec.toInt_sdiv_of_ne_or_ne a b hne]

/-- A remainder is smaller than its divisor, so it is a signed word. -/
theorem remOp_toInt {a b : Word} (hb : b.toNat ≠ 0) (ho : ¬ (a.toInt = -2 ^ 31 ∧ b.toInt = -1)) :
    (remOp a b).toInt = a.toInt.tmod b.toInt := by
  rw [remOp_eq_ofInt hb ho, ← BitVec.toInt_srem, BitVec.ofInt_toInt]

theorem divuOp_byZero (a : Word) {b : Word} (hb : b.toNat = 0) : divuOp a b = 0xFFFFFFFF#32 := if_pos hb

theorem remuOp_byZero (a : Word) {b : Word} (hb : b.toNat = 0) : remuOp a b = a := if_pos hb

theorem divuOp_toNat (a : Word) {b : Word} (hb : b.toNat ≠ 0) : (divuOp a b).toNat = a.toNat / b.toNat := by
  rw [divuOp, if_neg hb]
  exact Nat.mod_eq_of_lt ((Nat.div_le_self _ _).trans_lt a.isLt)

theorem remuOp_toNat (a : Word) {b : Word} (hb : b.toNat ≠ 0) : (remuOp a b).toNat = a.toNat % b.toNat := by
  rw [remuOp, if_neg hb]
  exact Nat.mod_eq_of_lt ((Nat.mod_le _ _).trans_lt a.isLt)

/-- R168: the signed values make up the dividend modulo 2^32, by zero and on overflow too. -/
theorem divOp_remOp (a b : Word) : a = b * divOp a b + remOp a b := by
  by_cases hb : b.toNat = 0
  · have hb0 : b = 0#32 := BitVec.eq_of_toNat_eq hb
    rw [divOp_byZero a hb, remOp_byZero a hb, hb0, BitVec.zero_mul, BitVec.zero_add]
  · by_cases ho : a.toInt = -2 ^ 31 ∧ b.toInt = -1
    · have ha : a = 0x80000000#32 := BitVec.eq_of_toInt_eq (ho.1.trans (by decide))
      have hb1 : b = -1#32 := BitVec.eq_of_toInt_eq (ho.2.trans (by decide))
      rw [divOp_overflow ho, remOp_overflow ho, ha, hb1]
      decide
    · calc a = BitVec.ofInt 32 (b.toInt * a.toInt.tdiv b.toInt + a.toInt.tmod b.toInt) := by
            rw [Int.mul_tdiv_add_tmod, BitVec.ofInt_toInt]
        _ = b * divOp a b + remOp a b := by
            rw [BitVec.ofInt_add, BitVec.ofInt_mul, BitVec.ofInt_toInt, divOp_eq_ofInt hb ho, remOp_eq_ofInt hb ho]

/-- R168: the unsigned values make up the dividend modulo 2^32, by zero too. -/
theorem divuOp_remuOp (a b : Word) : a = b * divuOp a b + remuOp a b := by
  by_cases hb : b.toNat = 0
  · have hb0 : b = 0#32 := BitVec.eq_of_toNat_eq hb
    rw [divuOp_byZero a hb, remuOp_byZero a hb, hb0, BitVec.zero_mul, BitVec.zero_add]
  · refine BitVec.eq_of_toNat_eq ?_
    rw [BitVec.toNat_add, BitVec.toNat_mul, Nat.mod_add_mod, divuOp_toNat a hb, remuOp_toNat a hb, Nat.div_add_mod,
      Nat.mod_eq_of_lt a.isLt]

/-! #### The little-endian numbers of one, two and four bytes (R44) -/

/-- The number of the bytes of an access fits in its width. -/
theorem toNat_ofNat_leNat {bits : Nat} (bs : List Byte) (h : 8 * bs.length = bits) :
    (BitVec.ofNat bits (leNat bs)).toNat = leNat bs := by
  subst h
  rw [BitVec.toNat_ofNat, Nat.mod_eq_of_lt (leNat_lt bs)]

theorem leNat_two (b0 b1 : Byte) : leNat [b0, b1] = b0.toNat + 2 ^ 8 * b1.toNat := by
  simp only [leNat]
  omega

theorem ofNat_leNat_one (b0 : Byte) : BitVec.ofNat 8 (leNat [b0]) = b0 :=
  BitVec.eq_of_toNat_eq (toNat_ofNat_leNat [b0] rfl)

theorem ofNat_leNat_two (b0 b1 : Byte) : BitVec.ofNat 16 (leNat [b0, b1]) = b1 ++ b0 := by
  refine BitVec.eq_of_toNat_eq ?_
  rw [toNat_ofNat_leNat (bits := 16) _ rfl, leNat_two, BitVec.toNat_append, ← Nat.shiftLeft_add_eq_or_of_lt b0.isLt,
    Nat.shiftLeft_eq]
  omega

end Sys2Proof.Machine

/-! ### Shifts and comparisons: SllAndSraMaskTheAmount, SltiuComparesUnsignedAfterSignExtension,
ImmediateShiftsUseTheirFiveBitAmount -/

namespace Sys2Proof.Proofs

open Sys2Proof.Machine Sys2Proof.Safety Sys2Proof.Claims

/-- Settles O37: both are rows of the table of OP, whose amount is the remainder of `x[rs2]` by 32. -/
theorem sllAndSraMaskTheAmount : Obligations.SllAndSraMaskTheAmount :=
  ⟨registerForm_of_aluReg (f7 := 0b0000000#7) (f3 := 0b001#3) rfl (fun _ _ _ _ => rfl) fun a b => by
      rw [shiftLeft_toNat, shiftAmount_toNat],
    registerForm_of_aluReg (f7 := 0b0100000#7) (f3 := 0b101#3) rfl (fun _ _ _ _ => rfl) fun a b => by
      rw [shiftRightSign_toInt, shiftAmount_toNat]⟩

/-- Settles O39: a row of the table of OP-IMM, with the operation of its register form. -/
theorem sltiuComparesUnsignedAfterSignExtension : Obligations.SltiuComparesUnsignedAfterSignExtension :=
  immediateForm_of_aluImm (f3 := 0b011#3) rfl (fun _ _ _ _ => rfl) sltuOp_toNat

/-- Settles O40: the three rows of the shifts of OP-IMM. -/
theorem immediateShiftsUseTheirFiveBitAmount : Obligations.ImmediateShiftsUseTheirFiveBitAmount :=
  ⟨shiftForm_of_shiftImm (f7 := 0b0000000#7) (f3 := 0b001#3) (by repeat constructor) (fun _ _ _ _ => rfl) shiftLeft_toNat,
    shiftForm_of_shiftImm (f7 := 0b0000000#7) (f3 := 0b101#3) (by repeat constructor) (fun _ _ _ _ => rfl)
      shiftRightZero_toNat,
    shiftForm_of_shiftImm (f7 := 0b0100000#7) (f3 := 0b101#3) (by repeat constructor) (fun _ _ _ _ => rfl)
      shiftRightSign_toInt⟩

/-! ### Division and MULHSU: SignedDivisionAndRemainder, UnsignedDivisionAndRemainder,
QuotientAndRemainderMakeUpTheDividend, MulhsuRaisesUnimplementedInstruction -/

/-- Settles O42: both are rows of the table of OP, by the three cases of the divisor and the dividend. -/
theorem signedDivisionAndRemainder : Obligations.SignedDivisionAndRemainder := by
  constructor
  · refine registerForm_of_aluReg (f7 := 0b0000001#7) (f3 := 0b100#3) rfl (fun _ _ _ _ => rfl) fun a b => ?_
    split_ifs with hb ho
    · rw [divOp_byZero a hb]; rfl
    · rw [divOp_overflow ho]; rfl
    · exact divOp_toInt hb ho
  · refine registerForm_of_aluReg (f7 := 0b0000001#7) (f3 := 0b110#3) rfl (fun _ _ _ _ => rfl) fun a b => ?_
    split_ifs with hb ho
    · exact remOp_byZero a hb
    · rw [remOp_overflow ho]; rfl
    · exact remOp_toInt hb ho

/-- Settles O43: both are rows of the table of OP, by whether the divisor is zero. -/
theorem unsignedDivisionAndRemainder : Obligations.UnsignedDivisionAndRemainder := by
  constructor
  · refine registerForm_of_aluReg (f7 := 0b0000001#7) (f3 := 0b101#3) rfl (fun _ _ _ _ => rfl) fun a b => ?_
    split_ifs with hb
    · rw [divuOp_byZero a hb]; rfl
    · exact divuOp_toNat a hb
  · refine registerForm_of_aluReg (f7 := 0b0000001#7) (f3 := 0b111#3) rfl (fun _ _ _ _ => rfl) fun a b => ?_
    split_ifs with hb
    · exact remuOp_byZero a hb
    · exact remuOp_toNat a hb

/-- Settles O44: the library's division laws for the integers and the numbers that the operations give. -/
theorem quotientAndRemainderMakeUpTheDividend : Obligations.QuotientAndRemainderMakeUpTheDividend := by
  intro a b
  refine ⟨fun hb hpair => ?_, fun hb => ?_, divOp_remOp a b, divuOp_remuOp a b⟩
  · have ho : ¬ (a.toInt = -2 ^ 31 ∧ b.toInt = -1) := by
      rintro ⟨ha, hb⟩
      obtain rfl : a = 0x80000000#32 := BitVec.eq_of_toInt_eq (ha.trans (by decide))
      obtain rfl : b = 0xFFFFFFFF#32 := BitVec.eq_of_toInt_eq (hb.trans (by decide))
      exact hpair ⟨rfl, rfl⟩
    have hpos : 0 < b.toInt.natAbs := Int.natAbs_pos.2 (mt (toInt_eq_zero_iff b).1 hb)
    rw [divOp_toInt hb ho, remOp_toInt hb ho, Int.natAbs_tmod]
    exact ⟨(Int.mul_tdiv_add_tmod _ _).symm, Nat.mod_lt _ hpos⟩
  · rw [divuOp_toNat a hb, remuOp_toNat a hb]
    exact ⟨(Nat.div_add_mod _ _).symm, Nat.mod_lt _ (by omega)⟩

/-- Settles O45: a row of the table of OP whose meaning is a raise. -/
theorem mulhsuRaisesUnimplementedInstruction : Obligations.MulhsuRaisesUnimplementedInstruction :=
  ⟨selects_of_opTable (f7 := 0b0000001#7) (f3 := 0b010#3) rfl, fun _ _ _ s => ⟨_, rfl, faultsWith_raise s _⟩⟩

/-! ### Upper immediates, jumps and branches: AuipcAddsToItsOwnAddress, JalLinksAndJumpsRelativeToItself,
JalrLinksAndJumpsToTheEvenSum, BranchesOnEquality, BranchesOnSignedOrder, BranchesOnUnsignedOrder -/

/-- Settles O47: the major field selects AUIPC, whose value is a sum of words. -/
theorem auipcAddsToItsOwnAddress : Obligations.AuipcAddsToItsOwnAddress :=
  ⟨selects_of_major (m := 0b0010111#7) (fun _ => majorOf_encodeU ..) fun _ hm => by rw [decodeWord_of_group rfl rfl hm],
    fun rd imm s => ⟨_, _, rfl, writesRegister_writeReg s rd _, by rw [BitVec.toNat_add, upper32_toNat]⟩⟩

/-- Settles O48: the major field selects JAL, whose jump checks its target before the link. -/
theorem jalLinksAndJumpsRelativeToItself : Obligations.JalLinksAndJumpsRelativeToItself :=
  ⟨selects_of_major (m := 0b1101111#7) (fun _ => majorOf_encodeJ ..) fun _ hm => by rw [decodeWord_of_group rfl rfl hm],
    fun rd _ s => ⟨fun ha => ⟨_, jumpAndLink_aligned ha, linksAndGoes_writeReg s rd _⟩,
      fun ha => ⟨_, jumpAndLink_misaligned ha, faultsWith_raise s _⟩⟩⟩

/-- Settles O49: the target is the model's, since clearing bit 0 of the sum is twice its half. -/
theorem jalrLinksAndJumpsToTheEvenSum : Obligations.JalrLinksAndJumpsToTheEvenSum := by
  refine ⟨selects_of_encodedI encodedI_jalr, fun rd rs1 imm s target htarget => ?_⟩
  obtain rfl : jalrTarget s rs1 imm = target :=
    BitVec.eq_of_toNat_eq ((clearBitZero_toNat _).trans htarget.symm)
  exact ⟨fun ha => ⟨_, jumpAndLink_aligned ha, linksAndGoes_writeReg s rd _⟩,
    fun ha => ⟨_, jumpAndLink_misaligned ha, faultsWith_raise s _⟩⟩

/-- Settles O50: two rows of BRANCH. -/
theorem branchesOnEquality : Obligations.BranchesOnEquality :=
  ⟨branchForm_of_branch (f3 := 0b000#3) (by repeat constructor) (fun _ _ _ _ => rfl) fun _ _ => by simp [equal],
    branchForm_of_branch (f3 := 0b001#3) (taken := fun a b => !equal a b) (by repeat constructor) (fun _ _ _ _ => rfl)
      fun _ _ => by simp [equal]⟩

/-- Settles O51: two rows of BRANCH. -/
theorem branchesOnSignedOrder : Obligations.BranchesOnSignedOrder :=
  ⟨branchForm_of_branch (f3 := 0b100#3) (by repeat constructor) (fun _ _ _ _ => rfl) fun _ _ => by simp [lessSigned],
    branchForm_of_branch (f3 := 0b101#3) (taken := fun a b => !lessSigned a b) (by repeat constructor) (fun _ _ _ _ => rfl)
      fun _ _ => by simp [lessSigned]⟩

/-- Settles O52: two rows of BRANCH. -/
theorem branchesOnUnsignedOrder : Obligations.BranchesOnUnsignedOrder :=
  ⟨branchForm_of_branch (f3 := 0b110#3) (by repeat constructor) (fun _ _ _ _ => rfl) fun _ _ => by simp [lessUnsigned],
    branchForm_of_branch (f3 := 0b111#3) (taken := fun a b => !lessUnsigned a b) (by repeat constructor) (fun _ _ _ _ => rfl)
      fun _ _ => by simp [lessUnsigned]⟩

/-! ### Loads, stores, FENCE and SYSTEM: ByteLoadsExtendTheByte, HalfwordLoadsExtendTwoBytes, WordLoadReadsFourBytes,
StoresWriteTheLowBytesAndNoOther, StoresToAnUnmappedByteWriteNothing, FenceOnlyAdvancesThePc,
SystemRaisesUnimplementedInstruction -/

/-- Settles O53: two rows of LOAD; the number of one byte is the byte. -/
theorem byteLoadsExtendTheByte : Obligations.ByteLoadsExtendTheByte := by
  constructor
  · refine loadForm_of_load (f3 := 0b000#3) (bits := 8) (extend := sext32) (by repeat constructor)
      (fun _ _ _ _ => rfl) fun b => ?_
    show (sext32 (BitVec.ofNat 8 (leNat [b 0]))).toInt = _
    rw [ofNat_leNat_one]
    exact BitVec.toInt_signExtend_of_le (by decide)
  · refine loadForm_of_load (f3 := 0b100#3) (bits := 8) (extend := zext32) (by repeat constructor)
      (fun _ _ _ _ => rfl) fun b => ?_
    show (zext32 (BitVec.ofNat 8 (leNat [b 0]))).toNat = _
    rw [ofNat_leNat_one]
    exact BitVec.toNat_setWidth_of_le (by decide)

/-- Settles O54: two rows of LOAD; the number of two bytes is the second above the first. -/
theorem halfwordLoadsExtendTwoBytes : Obligations.HalfwordLoadsExtendTwoBytes := by
  constructor
  · refine loadForm_of_load (f3 := 0b001#3) (bits := 16) (extend := sext32) (by repeat constructor)
      (fun _ _ _ _ => rfl) fun b => ?_
    show (sext32 (BitVec.ofNat 16 (leNat [b 0, b 1]))).toInt = _
    rw [ofNat_leNat_two, sext32, BitVec.toInt_signExtend_of_le (by decide), BitVec.toInt_append]
    exact Int.add_comm _ _
  · refine loadForm_of_load (f3 := 0b101#3) (bits := 16) (extend := zext32) (by repeat constructor)
      (fun _ _ _ _ => rfl) fun b => ?_
    show (zext32 (BitVec.ofNat 16 (leNat [b 0, b 1]))).toNat = _
    rw [zext32, BitVec.toNat_setWidth_of_le (by decide), toNat_ofNat_leNat (bits := 16) _ rfl, leNat_two]

/-- Settles O55: a row of LOAD; the number of four bytes fits in a word. -/
theorem wordLoadReadsFourBytes : Obligations.WordLoadReadsFourBytes := by
  refine loadForm_of_load (f3 := 0b010#3) (bits := 32) (extend := id) (by repeat constructor)
    (fun _ _ _ _ => rfl) fun b => ?_
  show (BitVec.ofNat 32 (leNat [b 0, b 1, b 2, b 3])).toNat = _
  rw [toNat_ofNat_leNat (bits := 32) _ rfl]
  simp only [leNat]
  omega

/-- Settles O56: the three rows of STORE. -/
theorem storesWriteTheLowBytesAndNoOther : Obligations.StoresWriteTheLowBytesAndNoOther :=
  ⟨storeForm_of_store (f3 := 0b000#3) (bits := 8) (by repeat constructor) fun _ _ _ _ => rfl,
    storeForm_of_store (f3 := 0b001#3) (bits := 16) (by repeat constructor) fun _ _ _ _ => rfl,
    storeForm_of_store (f3 := 0b010#3) (bits := 32) (by repeat constructor) fun _ _ _ _ => rfl⟩

/-- Settles O57: every byte is checked before any is written. -/
theorem storesToAnUnmappedByteWriteNothing : Obligations.StoresToAnUnmappedByteWriteNothing :=
  ⟨storeFaultForm_of_store (bits := 8) fun _ _ _ _ => rfl, storeFaultForm_of_store (bits := 16) fun _ _ _ _ => rfl,
    storeFaultForm_of_store (bits := 32) fun _ _ _ _ => rfl⟩

/-- Settles O58: funct3 and the major field select FENCE, and its meaning sets the pc alone. -/
theorem fenceOnlyAdvancesThePc : Obligations.FenceOnlyAdvancesThePc :=
  ⟨selects_of_funct3_major (f3 := 0b000#3) (m := 0b0001111#7)
      (fun _ => ⟨funct3Of_encodeI .., majorOf_encodeI ..⟩) fun _ => decodeWord_of_fence,
    fun _ _ _ _ _ s => ⟨_, rfl, goesTo_setPc s _⟩⟩

/-- Settles O59: the major field selects the SYSTEM group, whose meaning is a raise. -/
theorem systemRaisesUnimplementedInstruction : Obligations.SystemRaisesUnimplementedInstruction :=
  ⟨selects_of_major (m := 0b1110011#7) (fun _ => majorOf_encodeI ..) fun _ hm => by rw [decodeWord_of_group rfl rfl hm],
    fun _ _ _ _ s => ⟨_, rfl, faultsWith_raise s _⟩⟩

end Sys2Proof.Proofs

/-! ### Which addresses exist, and accesses to whole bytes -/

namespace Sys2Proof.Machine

open Sys2Proof.Safety

/-! #### Routing (R41) -/

theorem routeHolds_iff (r : Route) (a : Word) :
    routeHolds r a = true ↔ r.first.toNat ≤ a.toNat ∧ a.toNat ≤ r.last.toNat := by
  simp [routeHolds, BitVec.le_def]

/-- Decision D27: pairs whose range does not hold the address are passed over. -/
theorem routeOf_append {before : List Route} {a : Word} (h : ∀ q ∈ before, routeHolds q a = false) (r : Route)
    (after : List Route) (hr : routeHolds r a = true) :
    routeOf (before ++ r :: after) a = some (r.store, a - r.first) := by
  induction before with
  | nil => exact if_pos hr
  | cons q before ih =>
    obtain ⟨hq, hrest⟩ := List.forall_mem_cons.1 h
    rw [List.cons_append, routeOf, hq]
    exact ih hrest

/-- MAPPED is the union of the ranges. -/
theorem isMapped_iff (routes : List Route) (a : Word) :
    isMapped routes a = true ↔ ∃ r ∈ routes, r.first.toNat ≤ a.toNat ∧ a.toNat ≤ r.last.toNat := by
  simp only [← routeHolds_iff]
  induction routes with
  | nil => simp [isMapped, routeOf]
  | cons r routes ih =>
    rw [isMapped, routeOf]
    cases hr : routeHolds r a with
    | true => simp [hr]
    | false => simpa [hr, isMapped] using ih

/-! #### The number of consecutive bytes, byte by byte (R44, R45) -/

theorem addr_add (a : Word) (j k : Nat) :
    a + BitVec.ofNat 32 j + BitVec.ofNat 32 k = a + BitVec.ofNat 32 (j + k) := by
  rw [BitVec.add_assoc, BitVec.ofNat_add_ofNat]

theorem extractLsb'_ofNat_leNat {n : Nat} (bs : List Byte) {k : Nat} (hk : k < bs.length) (hn : bs.length ≤ n) :
    (BitVec.ofNat (8 * n) (leNat bs)).extractLsb' (8 * k) 8 = bs[k] := by
  have hlt : leNat bs < 2 ^ (8 * n) := (leNat_lt bs).trans_le (Nat.pow_le_pow_right (by omega) (by omega))
  refine BitVec.eq_of_toNat_eq ?_
  rw [BitVec.extractLsb'_toNat, BitVec.toNat_ofNat, Nat.mod_eq_of_lt hlt, Nat.shiftRight_eq_div_pow, leNat_byte bs k hk]

/-- A slice of a slice is a slice. -/
theorem extractLsb'_extractLsb' {n lo len lo' len' : Nat} (v : BitVec n) (h : lo' + len' ≤ len) :
    (v.extractLsb' lo len).extractLsb' lo' len' = v.extractLsb' (lo + lo') len' := by
  refine BitVec.eq_of_getLsbD_eq fun i hi => ?_
  simp only [BitVec.getLsbD_extractLsb', Nat.add_assoc]
  rw [decide_eq_true (show lo' + i < len by omega), Bool.true_and]

/-- A read of mapped bytes that are the bytes of a value gives the value. -/
theorem memRead_of_bytes {n : Nat} {s : State} {addr : Word} (v : BitVec (8 * n)) (hm : allMapped s addr n)
    (hb : ∀ k < n, readByte s (addr + BitVec.ofNat 32 k) = v.extractLsb' (8 * k) 8) :
    memRead (8 * n) s addr = .ok v := by
  have hwidth : 8 * n / 8 = n := Nat.mul_div_cancel_left n (by omega)
  have hbytes : readBytes s addr n = leBytes v := by
    refine List.ext_getElem (by rw [readBytes_length, leBytes_length, hwidth]) fun k hk hk' => ?_
    rw [readBytes_getElem, leBytes_getElem]
    exact hb k (by rwa [readBytes_length] at hk)
  rw [memRead_eq_ok (by rwa [hwidth]), hwidth, hbytes, ofNat_leNat_leBytes]

/-- R59, R47: where the bytes from `b` up are those of a word, a read of any of them gives that part of the word. -/
theorem memRead_part {s : State} {b v : Word} (hm : allMapped s b 4)
    (hb : ∀ k < 4, readByte s (b + BitVec.ofNat 32 k) = v.extractLsb' (8 * k) 8) (k n : Nat) (hkn : k + n ≤ 4) :
    memRead (8 * n) s (b + BitVec.ofNat 32 k) = .ok (v.extractLsb' (8 * k) (8 * n)) := by
  refine memRead_of_bytes _ (fun j hj => ?_) fun j hj => ?_
  · rw [addr_add]
    exact hm (k + j) (by omega)
  · rw [addr_add, hb (k + j) (by omega), extractLsb'_extractLsb' v (by omega), Nat.mul_add]

theorem memRead_word {s : State} {b v : Word} (hm : allMapped s b 4)
    (hb : ∀ k < 4, readByte s (b + BitVec.ofNat 32 k) = v.extractLsb' (8 * k) 8) : memRead 32 s b = .ok v :=
  memRead_of_bytes (n := 4) v hm hb

/-! #### A word stored and read back (R54, R57) -/

/-- Addresses that share the bytes of `n` different ones lead to `n` different bytes. -/
theorem distinctBytes_of_shares {s : State} {a b : Word} {n : Nat} (hd : distinctBytes s b n)
    (hs : ∀ k < n, sharesByte s.routes (a + BitVec.ofNat 32 k) (b + BitVec.ofNat 32 k) = true) :
    distinctBytes s a n := fun j hj k hk h =>
  hd j hj k hk (sharesByte_trans (sharesByte_symm (hs j hj)) (sharesByte_trans h (hs k hk)))

/-- SW answers a next state in which a word read through addresses that share the four stored bytes is the stored one. -/
theorem exec_sw_readBack {s : State} {rs1 rs2 : RegIdx} {imm : BitVec 12} {b : Word}
    (hs : ∀ k < 4, sharesByte s.routes (readReg s rs1 + sext32 imm + BitVec.ofNat 32 k) (b + BitVec.ofNat 32 k) = true)
    (hd : distinctBytes s (readReg s rs1 + sext32 imm) 4) :
    ∃ t, exec (.sw rs1 rs2 imm) s = .next t ∧ registersKept s t ∧ t.pc = s.pc + 4#32 ∧
      memRead 32 t b = .ok (readReg s rs2) := by
  have hm : allMapped s (readReg s rs1 + sext32 imm) 4 := fun k hk => (sharesByte_mapped (hs k hk)).1
  have hstored := storesBytes_writeBytes s (readReg s rs1 + sext32 imm) _ _
    (leBytes_extractLow_getElem (bits := 32) (readReg s rs2))
  rw [leBytes_length] at hstored
  obtain ⟨hbytes, hregs, hpc, -, hroutes⟩ := hstored
  refine ⟨_, store_mapped (bits := 32) hm, hregs, hpc, memRead_word (fun k hk => ?_) fun k hk => ?_⟩
  · rw [hroutes]
    exact (sharesByte_mapped (hs k hk)).2
  · exact bytesWritten_readBack hbytes hd hk (hs k hk)

/-! #### The canonical form under two writes of one byte -/

/-- Of two bytes put at one location the later counts. -/
theorem memPut_memPut {m : Memory} (hm : m.wf = true) (k : Nat) (b d : Byte) :
    memPut (memPut m k b) k d = memPut m k d := by
  refine memory_ext (memPut_wf k d (memPut_wf k b hm)) (memPut_wf k d hm) fun j => ?_
  by_cases hj : j = k
  · rw [hj, memByte_memPut_self, memByte_memPut_self]
  · rw [memByte_memPut_ne _ d hj, memByte_memPut_ne _ b hj, memByte_memPut_ne _ d hj]

theorem memPut_memByte {m : Memory} (hm : m.wf = true) (k : Nat) : memPut m k (memByte m k) = m := by
  refine memory_ext (memPut_wf k _ hm) hm fun j => ?_
  by_cases hj : j = k
  · rw [hj, memByte_memPut_self]
  · exact memByte_memPut_ne m _ hj

theorem writeByte_of_some {s : State} {a : Word} {k : Nat} (h : locationOf s.routes a = some k) (b : Byte) :
    writeByte s a b = setMem s (memPut s.mem k b) := by
  rw [writeByte, h]

theorem writeByte_of_none {s : State} {a : Word} (h : locationOf s.routes a = none) (b : Byte) : writeByte s a b = s := by
  rw [writeByte, h]

theorem writeByte_writeByte {s : State} {a c : Word} (hwf : s.mem.wf = true)
    (h : locationOf s.routes a = locationOf s.routes c) (b d : Byte) :
    writeByte (writeByte s a b) c d = writeByte s c d := by
  cases hk : locationOf s.routes c with
  | none => rw [writeByte_of_none (h.trans hk)]
  | some k =>
    rw [writeByte_of_some (h.trans hk), writeByte_of_some (s := setMem s (memPut s.mem k b)) hk, writeByte_of_some hk]
    exact congrArg (setMem s) (memPut_memPut hwf k b d)

theorem writeByte_readByte {s : State} (hwf : s.mem.wf = true) (a : Word) : writeByte s a (readByte s a) = s := by
  cases hk : locationOf s.routes a with
  | none => exact writeByte_of_none hk _
  | some k =>
    rw [writeByte_of_some hk, readByte, hk]
    exact congrArg (setMem s) (memPut_memByte hwf k)

/-! #### The initial state (R36, R291) -/

theorem readReg_boot (c : Config) {i : RegIdx} (hi : i ≠ 0#5) :
    readReg (boot c) i = c.initRegs[i.toNat]'(by have := i.isLt; omega) := by
  have hpos := regIdx_toNat_pos hi
  simp [readReg, hi, boot, Nat.sub_add_cancel hpos]

/-- An address that leads to the byte of one of the image reads the last one placed there. -/
theorem readByte_boot_image {c : Config} {a : Word} {k : Nat} (hk : k < c.image.length)
    (hs : sharesByte c.routes (c.imageBase + BitVec.ofNat 32 k) a = true)
    (hl : ∀ j < c.image.length, k < j → sharesByte c.routes (c.imageBase + BitVec.ofNat 32 j) a = false) :
    readByte (boot c) a = c.image[k] :=
  readByte_writeBytes _ _ _ _ k hk (by rwa [placeInitMem_routes]) (by rwa [placeInitMem_routes])

theorem readByte_boot_other {c : Config} {a : Word}
    (h : ∀ k < c.image.length, sharesByte c.routes (c.imageBase + BitVec.ofNat 32 k) a = false) :
    readByte (boot c) a = initByte c.routes c.initMem a := by
  refine (readByte_writeBytes_other _ _ _ _ (by rwa [placeInitMem_routes])).trans ?_
  exact readByte_placeInitMem rfl c.initMem a

end Sys2Proof.Machine

/-! ### Memory and the initial state: RoutingTakesTheFirstRangeThatHolds, RangesOverOneStoreShareItsBytes,
MemReadComposesBytesLittleEndian, MemWriteChecksEveryByteThenWritesLittleEndian, WordRoundTripAtEveryWidth,
ByteWriteKeepsTheCanonicalForm, InitialStateFollowsTheParameters, NextFetchSeesTheStore, LoadReturnsTheStoredWord -/

namespace Sys2Proof.Proofs

open Sys2Proof.Machine Sys2Proof.Safety

/-- Settles O4: by the list of routes; a range that ends within the address space is its two bounds. -/
theorem routingTakesTheFirstRangeThatHolds : Obligations.RoutingTakesTheFirstRangeThatHolds := by
  refine ⟨fun before after r a hbefore hfirst hlast => ?_, isMapped_iff, fun a => ?_, fun base a size hsize hend => ?_⟩
  · refine routeOf_append (fun q hq => ?_) r after ((routeHolds_iff r a).2 ⟨hfirst, hlast⟩)
    exact Bool.eq_false_iff.2 (mt (routeHolds_iff q a).1 (hbefore q hq))
  · exact (isMapped_iff _ _).2 ⟨_, List.mem_singleton_self _, Nat.zero_le _, Nat.le_of_lt_succ a.isLt⟩
  · have hlast : (base + BitVec.ofNat 32 (size - 1)).toNat = base.toNat + (size - 1) := by
      rw [BitVec.toNat_add, BitVec.toNat_ofNat]
      omega
    simp only [isMapped_iff, List.mem_singleton, exists_eq_left, hlast]
    omega

/-- Settles O60: sharing is having one route, and so one location. -/
theorem rangesOverOneStoreShareItsBytes : Obligations.RangesOverOneStoreShareItsBytes := by
  refine ⟨fun routes a b store store' offset offset' ha hb => ?_, fun _ _ _ => sharesByte_mapped, fun s a b v => ?_,
    fun _ _ _ hnodup => sharesByte_eq hnodup⟩
  · simp [sharesByte_iff, isMapped, ha, hb]
  · exact ⟨fun h => ⟨readByte_of_shares h, readByte_writeByte_shared v h⟩, readByte_writeByte_other v⟩

/-- Settles O6: every byte is checked first, and byte k of the number read is byte k read. -/
theorem memReadComposesBytesLittleEndian : Obligations.MemReadComposesBytesLittleEndian := by
  intro n _ s addr
  have hwidth : 8 * n / 8 = n := Nat.mul_div_cancel_left n (by omega)
  refine ⟨fun hm => ⟨_, memRead_eq_ok (by rwa [hwidth]), fun k hk => ?_⟩,
    fun k ⟨hk, hu, hl⟩ => memRead_eq_error (by rwa [hwidth]) hu hl⟩
  have hlen : (readBytes s addr (8 * n / 8)).length = n := by rw [readBytes_length, hwidth]
  rw [extractLsb'_ofNat_leNat _ (by rwa [hlen]) hlen.le, readBytes_getElem]

/-- Settles O7: every byte is checked first, and the bytes of the value are written in increasing order. -/
theorem memWriteChecksEveryByteThenWritesLittleEndian : Obligations.MemWriteChecksEveryByteThenWritesLittleEndian := by
  intro n _ s addr v
  have hwidth : 8 * n / 8 = n := Nat.mul_div_cancel_left n (by omega)
  refine ⟨fun hm => ⟨_, memWrite_eq_ok v (by rwa [hwidth]), ?_, fun r => readReg_writeBytes .., writeBytes_pc ..,
    writeBytes_status .., writeBytes_routes ..⟩, fun k ⟨hk, hu, hl⟩ => memWrite_eq_error v (by rwa [hwidth]) hu hl⟩
  have hwritten := bytesWritten_writeBytes s addr (leBytes v) _ (leBytes_getElem v)
  rwa [leBytes_length, hwidth] at hwritten

/-- Settles O8: each of the four bytes is read back, and a read of any of them gives that part of the word. -/
theorem wordRoundTripAtEveryWidth : Obligations.WordRoundTripAtEveryWidth := by
  intro s a v hm hd
  have hwritten := bytesWritten_writeBytes s a (leBytes v) _ (leBytes_getElem v)
  rw [leBytes_length] at hwritten
  have hm' : allMapped (writeBytes s a (leBytes v)) a 4 := by rwa [allMapped, writeBytes_routes]
  have hb : ∀ k < 4, readByte (writeBytes s a (leBytes v)) (a + BitVec.ofNat 32 k) = v.extractLsb' (8 * k) 8 :=
    fun k hk => bytesWritten_readBack hwritten hd hk (by rw [sharesByte_self]; exact hm k hk)
  exact ⟨_, memWrite_eq_ok v hm, memRead_word hm' hb, fun k hk => memRead_part hm' hb k 1 (by omega),
    fun k hk => memRead_part hm' hb k 2 (by omega)⟩

/-- Settles O9: canonical memories that read the same are the same, and two writes of one byte meet at one location. -/
theorem byteWriteKeepsTheCanonicalForm : Obligations.ByteWriteKeepsTheCanonicalForm := by
  intro s a c b d hwf
  refine ⟨writeByte_wf a b hwf, fun hm => readByte_writeByte_shared b (by rwa [sharesByte_self]), ?_, fun hs => ?_⟩
  · rw [writeByte_writeByte hwf rfl, writeByte_readByte hwf]
  · have hloc : locationOf s.routes a = locationOf s.routes c := (sharesByte_iff_locationOf.1 hs).2
    rw [writeByte_writeByte hwf hloc]
    simp only [writeByte, hloc]

/-- Settles O2: the image is written last, over INIT_MEM; with a store for each range no two of its addresses share a byte. -/
theorem initialStateFollowsTheParameters : Obligations.InitialStateFollowsTheParameters := by
  intro c hlen hmapped
  refine ⟨readReg_zero _, fun i hi => readReg_boot c hi, boot_pc c, boot_status c, boot_routes c,
    fun a k h => readByte_boot_image h, fun hnodup k h => ?_, fun a _ => readByte_boot_other⟩
  refine readByte_boot_image h (by rw [sharesByte_self]; exact hmapped k h) fun j hj hkj => ?_
  refine Bool.eq_false_iff.2 fun hshare => ?_
  have hjk : j = k := addr_inj (by omega) (by omega) (sharesByte_eq hnodup hshare)
  omega

/-- Settles O30: the fetch is a read of the four bytes SW has stored. -/
theorem nextFetchSeesTheStore : Obligations.NextFetchSeesTheStore := by
  intro s rs1 rs2 imm ha hs hd
  obtain ⟨t, ht, -, hpc, hread⟩ := exec_sw_readBack (rs2 := rs2) hs (distinctBytes_of_shares hd hs)
  have ha' : t.pc.extractLsb' 0 2 = 0b00#2 := (extractLow_eq_zero _).2 (hpc ▸ alignedAddress_add_four ha)
  refine ⟨t, ht, ?_⟩
  rw [fetch, if_pos ha', hpc, hread]

/-- Settles O31: the load is a read of the four bytes SW has stored, at an address SW did not change. -/
theorem loadReturnsTheStoredWord : Obligations.LoadReturnsTheStoredWord := by
  intro s rs1 rs2 rd base imm disp hs hd
  obtain ⟨t, ht, hregs, -, hread⟩ := exec_sw_readBack (rs2 := rs2) hs hd
  have haddr : effectiveAddress t base disp = readReg s base + sext32 disp := by rw [effectiveAddress, hregs base]
  refine ⟨t, setPc (writeReg t rd (readReg s rs2)) (t.pc + 4#32), ht, ?_, ?_⟩
  · rw [exec, execLw, load, haddr, hread]
    rfl
  · rw [readReg_setPc, readReg_writeReg, if_pos rfl]

end Sys2Proof.Proofs

/-! ### What an effect leaves unchanged -/

namespace Sys2Proof.Machine

open Sys2Proof.Safety Sys2Proof.Claims

/-- R24: only the destination register may change. -/
theorem Effect.register_kept {i : Instr} {s t : State} (he : Effect i s t) {r : RegIdx} (hr : some r ≠ destination i) :
    readReg t r = readReg s r := by
  cases he with
  | writes rd v hd hs ha =>
    rw [readReg_setPc]
    exact readReg_writeReg_other s v fun e => hr (by rw [e, hd])
  | goes hd hs ha => rfl
  | stores a bs hd hs hm hn => rw [readReg_setPc, readReg_writeBytes]
  | raises q hq hp hi => rfl

/-- R50: only the bytes of a store's span may change. -/
theorem Effect.byte_kept {i : Instr} {s t : State} (he : Effect i s t) {a : Word}
    (ha : ∀ b n, storeSpan s i = some (b, n) → ∀ k < n, sharesByte s.routes (b + BitVec.ofNat 32 k) a = false) :
    readByte t a = readByte s a := by
  cases he with
  | writes rd v hd hs hn => rw [readByte_setPc, readByte_writeReg]
  | goes hd hs hn => rfl
  | stores b bs hd hs hm hn =>
    rw [readByte_setPc]
    exact readByte_writeBytes_other s b a bs (ha b bs.length hs)
  | raises q hq hp hi => rfl

/-- R106: a store has no destination, and an instruction with a destination stores nothing. -/
theorem Effect.registersKept_or_memoryKept {i : Instr} {s t : State} (he : Effect i s t) :
    registersKept s t ∨ memoryKept s t := by
  cases hspan : storeSpan s i with
  | none => exact .inr fun a => he.byte_kept fun b n h => by simp [hspan] at h
  | some span =>
    cases he with
    | writes rd v hd hs ha => simp [hs] at hspan
    | goes hd hs ha => simp [hs] at hspan
    | stores a bs hd hs hm hn => exact .inl fun r => by rw [readReg_setPc, readReg_writeBytes]
    | raises q hq hp hi => exact .inl fun _ => rfl

/-! ### Two states that an instruction does not tell apart

`Alike R P` says that related states agree in what an instruction sees (the pc, MAPPED, every read of memory, and the
registers of `P`) and stay related under every operation that a meaning makes. Then an instruction whose sources are in
`P` has related effects in related states: `Alike.exec`. -/

structure Alike (R : State → State → Prop) (P : RegIdx → Prop) : Prop where
  pc : ∀ {s u}, R s u → u.pc = s.pc
  register : ∀ {s u}, R s u → ∀ q, P q → readReg u q = readReg s q
  mapped : ∀ {s u}, R s u → ∀ a, isMapped u.routes a = isMapped s.routes a
  byte : ∀ {s u}, R s u → ∀ a, readByte u a = readByte s a
  afterSetPc : ∀ {s u}, R s u → ∀ p, R (setPc s p) (setPc u p)
  afterRaise : ∀ {s u}, R s u → ∀ r, R (raise s r) (raise u r)
  afterWriteReg : ∀ {s u}, R s u → ∀ rd v, R (writeReg s rd v) (writeReg u rd v)
  afterWriteByte : ∀ {s u}, R s u → ∀ a b, R (writeByte s a b) (writeByte u a b)

/-- Both outcomes are next states, related, and alike in the destination when no fault was raised. -/
def AlikeOutcomes (R : State → State → Prop) (d : Option RegIdx) (o p : Result) : Prop :=
  ∃ t v, o = .next t ∧ p = .next v ∧ R t v ∧
    ∀ rd, d = some rd → t.status = .running → readReg v rd = readReg t rd

namespace Alike

variable {R : State → State → Prop} {P : RegIdx → Prop} {s u : State}

theorem afterWriteBytes (hR : Alike R P) (h : R s u) (a : Word) (bs : List Byte) :
    R (writeBytes s a bs) (writeBytes u a bs) := by
  induction bs generalizing s u a with
  | nil => exact h
  | cons b bs ih => exact ih (hR.afterWriteByte h a b) _

theorem allMapped_iff (hR : Alike R P) (h : R s u) (a : Word) (n : Nat) : allMapped u a n ↔ allMapped s a n := by
  simp only [allMapped, hR.mapped h]

theorem lowestUnmapped_iff (hR : Alike R P) (h : R s u) (a : Word) (n k : Nat) :
    lowestUnmapped u a n k ↔ lowestUnmapped s a n k := by
  simp only [lowestUnmapped, allMapped, hR.mapped h]

theorem raised (hR : Alike R P) (h : R s u) (d : Option RegIdx) (r : FaultRecord) :
    AlikeOutcomes R d (raised s r) (raised u r) :=
  ⟨_, _, rfl, rfl, hR.afterRaise h r, fun _ _ hrun => by simp at hrun⟩

theorem goes (hR : Alike R P) (h : R s u) (p : Word) :
    AlikeOutcomes R none (.next (setPc s p)) (.next (setPc u p)) :=
  ⟨_, _, rfl, rfl, hR.afterSetPc h p, fun _ hd => by simp at hd⟩

/-- The written register reads the value, or 0, in both. -/
theorem writes (hR : Alike R P) (h : R s u) (rd : RegIdx) (v p : Word) :
    AlikeOutcomes R (some rd) (.next (setPc (writeReg s rd v) p)) (.next (setPc (writeReg u rd v) p)) := by
  refine ⟨_, _, rfl, rfl, hR.afterSetPc (hR.afterWriteReg h rd v) p, fun q hq _ => ?_⟩
  cases hq
  simp only [readReg_setPc, readReg_writeReg, if_true]

theorem writeAndAdvance (hR : Alike R P) (h : R s u) (rd : RegIdx) (v : Word) :
    AlikeOutcomes R (some rd) (writeAndAdvance rd v s) (writeAndAdvance rd v u) := by
  rw [Machine.writeAndAdvance, Machine.writeAndAdvance, hR.pc h]
  exact hR.writes h rd v _

theorem aluReg (hR : Alike R P) (h : R s u) (op : Word → Word → Word) (rd : RegIdx) {rs1 rs2 : RegIdx} (h1 : P rs1)
    (h2 : P rs2) : AlikeOutcomes R (some rd) (aluReg op rd rs1 rs2 s) (aluReg op rd rs1 rs2 u) := by
  rw [Machine.aluReg, Machine.aluReg, hR.register h rs1 h1, hR.register h rs2 h2]
  exact hR.writeAndAdvance h rd _

theorem aluImm (hR : Alike R P) (h : R s u) (op : Word → Word → Word) (rd : RegIdx) {rs1 : RegIdx} (imm : BitVec 12)
    (h1 : P rs1) : AlikeOutcomes R (some rd) (aluImm op rd rs1 imm s) (aluImm op rd rs1 imm u) := by
  rw [Machine.aluImm, Machine.aluImm, hR.register h rs1 h1]
  exact hR.writeAndAdvance h rd _

theorem shiftImm (hR : Alike R P) (h : R s u) (op : Word → BitVec 5 → Word) (rd : RegIdx) {rs1 : RegIdx}
    (shamt : BitVec 5) (h1 : P rs1) :
    AlikeOutcomes R (some rd) (shiftImm op rd rs1 shamt s) (shiftImm op rd rs1 shamt u) := by
  rw [Machine.shiftImm, Machine.shiftImm, hR.register h rs1 h1]
  exact hR.writeAndAdvance h rd _

theorem jumpAndLink (hR : Alike R P) (h : R s u) (inst : Word) (rd : RegIdx) (target : Word) :
    AlikeOutcomes R (some rd) (jumpAndLink inst rd target s) (jumpAndLink inst rd target u) := by
  by_cases ha : alignedAddress target
  · rw [jumpAndLink_aligned ha, jumpAndLink_aligned ha, hR.pc h]
    exact hR.writes h rd _ _
  · rw [jumpAndLink_misaligned ha, jumpAndLink_misaligned ha, hR.pc h]
    exact hR.raised h _ _

theorem branch (hR : Alike R P) (h : R s u) (taken : Word → Word → Bool) (inst : Word) {rs1 rs2 : RegIdx}
    (offset : BitVec 13) (h1 : P rs1) (h2 : P rs2) :
    AlikeOutcomes R none (branch taken inst rs1 rs2 offset s) (branch taken inst rs1 rs2 offset u) := by
  have hregs : taken (readReg u rs1) (readReg u rs2) = taken (readReg s rs1) (readReg s rs2) := by
    rw [hR.register h rs1 h1, hR.register h rs2 h2]
  have hpc := hR.pc h
  cases ht : taken (readReg s rs1) (readReg s rs2) with
  | false =>
    rw [branch_notTaken ht, branch_notTaken (hregs.trans ht), hpc]
    exact hR.goes h _
  | true =>
    by_cases ha : alignedAddress (s.pc + sext32 offset)
    · rw [branch_taken ht ha, branch_taken (hregs.trans ht) (by rwa [hpc]), hpc]
      exact hR.goes h _
    · rw [branch_misaligned ht ha, branch_misaligned (hregs.trans ht) (by rwa [hpc]), hpc]
      exact hR.raised h _ _

theorem load (hR : Alike R P) (h : R s u) {bits : Nat} (extend : BitVec bits → Word) (inst : Word) (rd : RegIdx)
    {rs1 : RegIdx} (imm : BitVec 12) (h1 : P rs1) :
    AlikeOutcomes R (some rd) (load bits extend inst rd rs1 imm s) (load bits extend inst rd rs1 imm u) := by
  rw [Machine.load, Machine.load, effectiveAddress, effectiveAddress, hR.register h rs1 h1, hR.pc h,
    memRead_congr (hR.mapped h) (hR.byte h)]
  cases memRead bits s (readReg s rs1 + sext32 imm) with
  | error a => exact hR.raised h _ _
  | ok v => exact hR.writeAndAdvance h rd _

theorem store (hR : Alike R P) (h : R s u) (bits : Nat) (inst : Word) {rs1 rs2 : RegIdx} (imm : BitVec 12)
    (h1 : P rs1) (h2 : P rs2) :
    AlikeOutcomes R none (store bits inst rs1 rs2 imm s) (store bits inst rs1 rs2 imm u) := by
  have haddr := hR.register h rs1 h1
  rcases mapped_or_lowest s (readReg s rs1 + sext32 imm) (bits / 8) with hm | ⟨k, hk⟩
  · rw [store_mapped hm, store_mapped (by rw [haddr]; exact (hR.allMapped_iff h _ _).2 hm), haddr,
      hR.register h rs2 h2, hR.pc h]
    exact hR.goes (hR.afterWriteBytes h _ _) _
  · rw [store_unmapped hk, store_unmapped (by rw [haddr]; exact (hR.lowestUnmapped_iff h _ _ _).2 hk), haddr, hR.pc h]
    exact hR.raised h _ _

/-- An instruction whose sources are in `P` has related effects in related states. -/
theorem exec (hR : Alike R P) (h : R s u) (i : Instr) (hsrc : ∀ q ∈ sources i, P q) :
    AlikeOutcomes R (destination i) (exec i s) (exec i u) := by
  cases i with
  | add rd rs1 rs2 | sub rd rs1 rs2 | slt rd rs1 rs2 | sltu rd rs1 rs2 | xor rd rs1 rs2 | or rd rs1 rs2 | and rd rs1 rs2
  | mul rd rs1 rs2 | mulh rd rs1 rs2 | mulhu rd rs1 rs2 | div rd rs1 rs2 | divu rd rs1 rs2 | rem rd rs1 rs2
  | remu rd rs1 rs2 =>
    exact hR.aluReg h _ rd (hsrc rs1 (.head _)) (hsrc rs2 (.tail _ (.head _)))
  | sll rd rs1 rs2 =>
    exact hR.aluReg h (fun a b => shiftLeft a (shiftAmount b)) rd (hsrc rs1 (.head _)) (hsrc rs2 (.tail _ (.head _)))
  | srl rd rs1 rs2 =>
    exact hR.aluReg h (fun a b => shiftRightZero a (shiftAmount b)) rd (hsrc rs1 (.head _)) (hsrc rs2 (.tail _ (.head _)))
  | sra rd rs1 rs2 =>
    exact hR.aluReg h (fun a b => shiftRightSign a (shiftAmount b)) rd (hsrc rs1 (.head _)) (hsrc rs2 (.tail _ (.head _)))
  | addi rd rs1 imm | slti rd rs1 imm | sltiu rd rs1 imm | xori rd rs1 imm | ori rd rs1 imm | andi rd rs1 imm =>
    exact hR.aluImm h _ rd imm (hsrc rs1 (.head _))
  | slli rd rs1 shamt | srli rd rs1 shamt | srai rd rs1 shamt =>
    exact hR.shiftImm h _ rd shamt (hsrc rs1 (.head _))
  | lui rd imm => exact hR.writeAndAdvance h rd _
  | auipc rd imm =>
    have hexec : Machine.exec (.auipc rd imm) u = Machine.writeAndAdvance rd (s.pc + upper32 imm) u := by
      rw [← hR.pc h]; rfl
    rw [hexec]
    exact hR.writeAndAdvance h rd _
  | jal rd offset =>
    have htarget : jalTarget u offset = jalTarget s offset := by rw [jalTarget, jalTarget, hR.pc h]
    rw [Machine.exec, Machine.exec, execJal, execJal, htarget]
    exact hR.jumpAndLink h _ rd _
  | jalr rd rs1 imm =>
    have htarget : jalrTarget u rs1 imm = jalrTarget s rs1 imm := by
      rw [jalrTarget, jalrTarget, hR.register h rs1 (hsrc rs1 (.head _))]
    rw [Machine.exec, Machine.exec, execJalr, execJalr, htarget]
    exact hR.jumpAndLink h _ rd _
  | beq rs1 rs2 offset | blt rs1 rs2 offset | bltu rs1 rs2 offset =>
    exact hR.branch h _ _ offset (hsrc rs1 (.head _)) (hsrc rs2 (.tail _ (.head _)))
  | bne rs1 rs2 offset =>
    exact hR.branch h (fun a b => !equal a b) _ offset (hsrc rs1 (.head _)) (hsrc rs2 (.tail _ (.head _)))
  | bge rs1 rs2 offset =>
    exact hR.branch h (fun a b => !lessSigned a b) _ offset (hsrc rs1 (.head _)) (hsrc rs2 (.tail _ (.head _)))
  | bgeu rs1 rs2 offset =>
    exact hR.branch h (fun a b => !lessUnsigned a b) _ offset (hsrc rs1 (.head _)) (hsrc rs2 (.tail _ (.head _)))
  | lb rd rs1 imm | lh rd rs1 imm | lw rd rs1 imm | lbu rd rs1 imm | lhu rd rs1 imm =>
    exact hR.load h _ _ rd imm (hsrc rs1 (.head _))
  | sb rs1 rs2 imm | sh rs1 rs2 imm | sw rs1 rs2 imm =>
    exact hR.store h _ _ imm (hsrc rs1 (.head _)) (hsrc rs2 (.tail _ (.head _)))
  | fence fm pred succ rs1 rd =>
    rw [Machine.exec, Machine.exec, execFence, execFence, hR.pc h]
    exact hR.goes h _
  | mulhsu rd rs1 rs2 =>
    rw [Machine.exec, Machine.exec, execMulhsu, execMulhsu, hR.pc h]
    exact hR.raised h _ _
  | system f rs1 g rd =>
    rw [Machine.exec, Machine.exec, execSystem, execSystem, hR.pc h]
    exact hR.raised h _ _

/-- Fetching sees the pc, MAPPED and the bytes alone. -/
theorem fetch (hR : Alike R P) (h : R s u) : fetch u = fetch s := by
  rw [Machine.fetch, Machine.fetch, hR.pc h, memRead_congr (hR.mapped h) (hR.byte h)]

/-- Where every register is alike, Running cores step alike. -/
theorem step (hR : Alike R fun _ => True) (h : R s u) (hs : s.status = .running) (hu : u.status = .running) :
    ∃ t v, step s = .next t ∧ step u = .next v ∧ R t v := by
  have hfetch := hR.fetch h
  cases hf : Machine.fetch s with
  | error r => exact ⟨_, _, step_fetchFault hs hf, step_fetchFault hu (hfetch.trans hf), hR.afterRaise h r⟩
  | ok w =>
    cases hd : decodeWord w with
    | error e =>
      refine ⟨_, _, step_unimplemented hs hf hd, step_unimplemented hu (hfetch.trans hf) hd, ?_⟩
      rw [hR.pc h]
      exact hR.afterRaise h _
    | ok i =>
      obtain ⟨t, v, ht, hv, htv, -⟩ := hR.exec h i fun _ _ => trivial
      exact ⟨t, v, (step_runs hs hf hd).trans ht, (step_runs hu (hfetch.trans hf) hd).trans hv, htv⟩

end Alike

/-! #### The two relations: one combined map, and all but one register -/

/-- R41: states that show the same combined map. -/
theorem alike_sameCombinedMap : Alike sameCombinedMap fun _ => True where
  pc := fun ⟨_, hpc, _⟩ => hpc
  register := fun ⟨hregs, _⟩ q _ => hregs q
  mapped := fun ⟨_, _, _, _, hmapped, _⟩ => hmapped
  byte := fun ⟨_, _, _, hmem, _⟩ => hmem
  afterSetPc := fun ⟨hregs, _, hrest⟩ _ => ⟨hregs, rfl, hrest⟩
  afterRaise := fun ⟨hregs, hpc, _, hrest⟩ _ => ⟨hregs, hpc, rfl, hrest⟩
  afterWriteReg := fun {s u} ⟨hregs, hpc, hst, hmem, hmapped, hshares⟩ rd v => by
    refine ⟨fun q => ?_, by simpa using hpc, by simpa using hst, fun a => ?_, by simpa using hmapped, by simpa using hshares⟩
    · rw [readReg_writeReg, readReg_writeReg, hregs q]
    · rw [readByte_writeReg, readByte_writeReg, hmem a]
  afterWriteByte := fun {s u} ⟨hregs, hpc, hst, hmem, hmapped, hshares⟩ a b => by
    refine ⟨fun q => ?_, by simpa using hpc, by simpa using hst, fun c => ?_, by simpa using hmapped, by simpa using hshares⟩
    · rw [readReg_writeByte, readReg_writeByte, hregs q]
    · rw [readByte_writeByte, readByte_writeByte, hshares, hmem c]

/-- The states differ in register `r` at most. -/
def sameBut (r : RegIdx) (s u : State) : Prop :=
  u.pc = s.pc ∧ u.mem = s.mem ∧ u.status = s.status ∧ u.routes = s.routes ∧ ∀ q, q ≠ r → readReg u q = readReg s q

theorem sameBut_writeReg (s : State) (r : RegIdx) (v : Word) : sameBut r s (writeReg s r v) :=
  ⟨writeReg_pc .., writeReg_mem .., writeReg_status .., writeReg_routes .., fun _ hq => readReg_writeReg_other s v hq⟩

/-- R24: states that differ in one register at most. -/
theorem alike_sameBut (r : RegIdx) : Alike (sameBut r) fun q => q ≠ r where
  pc := fun ⟨hpc, _⟩ => hpc
  register := fun ⟨_, _, _, _, hregs⟩ => hregs
  mapped := fun ⟨_, _, _, hroutes, _⟩ a => by rw [hroutes]
  byte := fun ⟨_, hmem, _, hroutes, _⟩ => readByte_congr hmem hroutes
  afterSetPc := fun ⟨_, hrest⟩ _ => ⟨rfl, hrest⟩
  afterRaise := fun ⟨hpc, hmem, _, hrest⟩ _ => ⟨hpc, hmem, rfl, hrest⟩
  afterWriteReg := fun ⟨hpc, hmem, hst, hroutes, hregs⟩ rd v => by
    refine ⟨by simpa using hpc, by simpa using hmem, by simpa using hst, by simpa using hroutes, fun q hq => ?_⟩
    rw [readReg_writeReg, readReg_writeReg, hregs q hq]
  afterWriteByte := fun {s u} ⟨hpc, hmem, hst, hroutes, hregs⟩ a b => by
    refine ⟨by simpa using hpc, ?_, by simpa using hst, by simpa using hroutes, fun q hq => ?_⟩
    · cases hk : locationOf s.routes a with
      | none => rw [writeByte_of_none hk, writeByte_of_none (hroutes ▸ hk), hmem]
      | some k => rw [writeByte_of_some hk, writeByte_of_some (hroutes ▸ hk), setMem_mem, setMem_mem, hmem]
    · rw [readReg_writeByte, readReg_writeByte, hregs q hq]

end Sys2Proof.Machine

/-! ### Frames and noninterference: EveryInstructionKeepsItsFrame, OnlySourceRegistersAreRead, StepSeesOnlyTheCombinedMap -/

namespace Sys2Proof.Proofs

open Sys2Proof.Machine Sys2Proof.Safety

/-- Settles O28: by the four kinds of effect. -/
theorem everyInstructionKeepsItsFrame : Obligations.EveryInstructionKeepsItsFrame := by
  intro i s t hexec
  have he : Effect i s t := effect_of_exec hexec
  exact ⟨readReg_zero t, fun _ => he.register_kept, fun _ => he.byte_kept, he.registersKept_or_memoryKept⟩

/-- Settles O29: an instruction does not tell apart states that differ in a register it does not read. -/
theorem onlySourceRegistersAreRead : Obligations.OnlySourceRegistersAreRead := by
  intro i s t r v hr ht
  obtain ⟨t', u, ht', hu, ⟨hpc, hmem, hst, -, hregs⟩, hdest⟩ :=
    (alike_sameBut r).exec (sameBut_writeReg s r v) i fun q hq e => hr (e ▸ hq)
  cases ht.symm.trans ht'
  exact ⟨u, hu, hpc, hmem, hst, hregs, hdest r⟩

/-- Settles O5: a step does not tell apart states that show the same combined map. -/
theorem stepSeesOnlyTheCombinedMap : Obligations.StepSeesOnlyTheCombinedMap := by
  intro s u h
  obtain ⟨-, -, hst, -⟩ := id h
  cases hs : s.status with
  | faulted r =>
    have hfs := step_faulted hs
    have hfu := step_faulted (hst.trans hs)
    exact ⟨fun t ht => by simp [hfs] at ht, fun f hf => hfu.trans (hfs.symm.trans hf)⟩
  | running =>
    obtain ⟨t, v, ht, hv, htv⟩ := alike_sameCombinedMap.step h hs (hst.trans hs)
    refine ⟨fun t' ht' => ?_, fun f hf => by simp [ht] at hf⟩
    cases ht.symm.trans ht'
    exact ⟨v, hv, htv⟩

end Sys2Proof.Proofs
